-- ==== Sys2Proof/Word.lean ====
section
/-! DEFINITION. The word types of CORE: memory words, registers and image bytes (R9), and the two halves of an
instruction word with the operand field (R91). They have the widths at which the rules are written; a configuration
names its own (`Config.wordBits`, `regBits`, `immBits`) and is admitted where they are these (log 2). -/

namespace Sys2Proof

/-- A memory word, u32: `WORD_BITS` is 32 (R6, R42). -/
abbrev Word := BitVec 32

/-- A register value, i64 in two's complement: `REG_BITS` is 64 (R6, R30). `BitVec.toInt` is its
value; its bits are the u64 of R9, so `u64` and `s64` of R9 leave the bits as they are (D17). -/
abbrev I64 := BitVec 64

/-- A byte of the program image or of the input (R13, R77). -/
abbrev Byte := BitVec 8

/-- The `src` or the `dst` half of an instruction word, u16 (R91). -/
abbrev Half := BitVec 16

/-- The operand field `S`: an immediate, for which `IMM_BITS` is 15, or a source register index (R6, R91). -/
abbrev OperandField := BitVec 15

end Sys2Proof
end

