-- ==== Sys2Proof/Config.lean ====
section
/-! DEFINITION. The implementation parameters of R6, each a field of `Config`, and the one free value of the model,
the host's answer to a poll (I13, D22). The default values, the check of R35 and the trigger tables stand in
Machine/Wiring.lean. -/

namespace Sys2Proof

/-- The register roles of R33 and R34. -/
inductive Role where
  | addA | addB | addR
  | subA | subB | subR
  | mulA | mulB | mulR
  | divN | divD | divQ | divRem
  | ltA | ltB | ltR
  | selCond | selIfZero | selIfNonzero | selR
  | conOut | conIn | secOut | secNl
  | memData | memAddr | memCommit
  | pc
  deriving DecidableEq, Repr

/-- `RegMap` of R6: the register index of every role but the program counter, whose index is `PC_IDX`
(R33, R34). -/
structure RegMap where
  addA : Nat
  addB : Nat
  addR : Nat
  subA : Nat
  subB : Nat
  subR : Nat
  mulA : Nat
  mulB : Nat
  mulR : Nat
  divN : Nat
  divD : Nat
  divQ : Nat
  divRem : Nat
  ltA : Nat
  ltB : Nat
  ltR : Nat
  selCond : Nat
  selIfZero : Nat
  selIfNonzero : Nat
  selR : Nat
  conOut : Nat
  conIn : Nat
  secOut : Nat
  secNl : Nat
  memData : Nat
  memAddr : Nat
  memCommit : Nat
  deriving DecidableEq, Repr

/-- `OPERAND_TRIGGERS` of R6: which operand writes fire a binary operation (R130). -/
inductive OperandTriggers where
  | both
  | secondOnly
  deriving DecidableEq, Repr

/-- `ARITH_OVERFLOW` of R6: what add, subtract and multiply do with a result outside i64 (R131). -/
inductive OverflowPolicy where
  | fault
  | wrap
  deriving DecidableEq, Repr

/-- The parameters of R6. -/
structure Config where
  /-- `WORD_BITS` -/
  wordBits : Nat
  /-- `REG_BITS` -/
  regBits : Nat
  /-- `NREG` -/
  nreg : Nat
  /-- `PC_IDX` -/
  pcIdx : Nat
  /-- `CAP` -/
  cap : Nat
  /-- `IMM_BITS` -/
  immBits : Nat
  /-- `CLEAR_CODE` -/
  clearCode : I64
  /-- `NEWLINE_CODE` -/
  newlineCode : I64
  /-- `RegMap` -/
  map : RegMap
  /-- `OPERAND_TRIGGERS` -/
  operandTriggers : OperandTriggers
  /-- `ARITH_OVERFLOW` -/
  arithOverflow : OverflowPolicy
  /-- `REG_INIT` -/
  regInit : I64
  /-- `ENTRY` -/
  entry : I64
  /-- `MEM_INIT` -/
  memInit : Word
  /-- `LOAD_BASE` -/
  loadBase : Nat
  deriving DecidableEq, Repr

/-- FREE VALUE (log 8). The host's answer to the `n`-th poll that no entry of `State.inputs` answers: any byte, or
no data (R166, I13, D22). It has no body, so no proof can know an answer. -/
opaque Config.hostAnswer : Nat → Option Byte

end Sys2Proof
end

