-- ==== Sys2Proof/Syntax.lean ====
section
/-! DEFINITION. The instructions of CORE: the one instruction MOVE in its two forms (R2, R95,
spec/opcode_table.json). -/

namespace Sys2Proof

/-- The two rows of the opcode table. Operands are the numbers the fields name (R92, R93, R94); their ranges are
checked in WellFormed.lean. -/
inductive Instr where
  /-- `mov #imm, rD` (R199) -/
  | movImm (imm dst : Nat)
  /-- `mov rS, rD` (R200) -/
  | movReg (src dst : Nat)
  deriving DecidableEq, Repr

/-- The destination register index (R94). -/
def Instr.dst : Instr → Nat
  | .movImm _ d => d
  | .movReg _ d => d

@[simp] theorem Instr.dst_movImm (n d : Nat) : (Instr.movImm n d).dst = d := rfl
@[simp] theorem Instr.dst_movReg (r d : Nat) : (Instr.movReg r d).dst = d := rfl

end Sys2Proof
end

