-- ==== Sys2Proof/WellFormed.lean ====
section
/-! DEFINITION. When an instruction term is one the encoding can express: the operand ranges of R92, R93, R94 and
R99. -/

namespace Sys2Proof

/-- An immediate, or a source register index, fits the 15 bits of `S` (R92, R93). -/
def operandFits (n : Nat) : Bool := decide (n < 2 ^ 15)

/-- A destination register index fits the 16 bits of `dst` (R94). -/
def destinationFits (n : Nat) : Bool := decide (n < 2 ^ 16)

/-- The conditions of R99 on `mov #n, rD` and `mov rS, rD`. -/
def Instr.wellFormed : Instr → Bool
  | .movImm n d => operandFits n && destinationFits d
  | .movReg r d => operandFits r && destinationFits d

end Sys2Proof
end

