-- ==== Sys2Proof/Decode.lean ====
section
/-! DEFINITION. Decoding and encoding of the instruction word (R90 to R101), the packing of image bytes into words
(R68), and the decoder as the host calls it. -/

namespace Sys2Proof

/-- `src = w[31:16]` (R91). -/
def srcField (w : Word) : Half := w.extractLsb' 16 16

/-- `dst = w[15:0]` (R91). -/
def dstField (w : Word) : Half := w.extractLsb' 0 16

/-- `I`, bit 15 of `src`: an immediate source (R91). -/
def immediateFlag (src : Half) : Bool := src.getLsbD 15

/-- `S`, bits 14:0 of `src`: the immediate, or the source register index (R91). -/
def operandField (src : Half) : OperandField := src.extractLsb' 0 15

/-- The instruction that the two fields name; total (R95). -/
def decodeFields (src dst : Half) : Instr :=
  if immediateFlag src then .movImm (operandField src).toNat dst.toNat
  else .movReg (operandField src).toNat dst.toNat

/-- Every word decodes (R95, R97). -/
def decode (w : Word) : Instr := decodeFields (srcField w) (dstField w)

/-- `I`, then `S`, then `dst`, the more significant first (R91). -/
def packFields (flag : Bool) (operand : OperandField) (dst : Half) : Word :=
  ((BitVec.ofBool flag ++ operand) ++ dst).cast (by decide)

/-- The word of an instruction (R91, R99). -/
def encode : Instr → Word
  | .movImm n d => packFields true (BitVec.ofNat 15 n) (BitVec.ofNat 16 d)
  | .movReg r d => packFields false (BitVec.ofNat 15 r) (BitVec.ofNat 16 d)

/-- Four image bytes, in buffer order, as one word, big-endian (R68). -/
def packWord (b0 b1 b2 b3 : Byte) : Word := ((b0 ++ b1) ++ (b2 ++ b3)).cast (by decide)

/-- Why bytes are no instruction: the one reason is that fewer than the four bytes of a word are left (R77: a
partial word is dropped). No word is illegal (R97). -/
inductive DecodeError where
  | truncatedWord (bytes : Nat)
  deriving DecidableEq, Repr

/-- The first instruction of an image and the bytes after it; total on any bytes. -/
def decodeBytes : List Byte → Except DecodeError (Instr × List Byte)
  | b0 :: b1 :: b2 :: b3 :: rest => .ok (decode (packWord b0 b1 b2 b3), rest)
  | short => .error (.truncatedWord short.length)

/-- The word whose low `nbits` bits are those of `w` and whose other bits are 0. -/
def tableWord (nbits w : Nat) : Word := BitVec.ofNat 32 (w % 2 ^ nbits)

/-- The decoder on an instruction numbered as spec/opcode_table.json numbers it: memory is word-addressed (R60), so
the one word of the instruction is the table's number itself. An instruction longer than a word does not exist
(R90). -/
def decodeTableWord (nbits w : Nat) : Option Instr :=
  if nbits ≤ 32 then some (decode (tableWord nbits w)) else none

end Sys2Proof
end

