-- ==== Sys2Proof/Machine/Wiring.lean ====
section
/-! DEFINITION. How a configuration wires the register file: the default parameters (R6, R34), the constraints of
R35, the operation catalogue (R118) and the trigger tables made from it (R45, R113). -/

namespace Sys2Proof

/-- The default `RegMap` (R33, R34; D1). -/
def RegMap.default : RegMap where
  addA := 0
  addB := 1
  addR := 2
  subA := 3
  subB := 4
  subR := 5
  mulA := 6
  mulB := 7
  mulR := 8
  divN := 9
  divD := 10
  divQ := 11
  divRem := 12
  ltA := 13
  ltB := 14
  ltR := 15
  selCond := 20
  selIfZero := 21
  selIfNonzero := 22
  selR := 23
  conOut := 24
  conIn := 25
  secOut := 26
  secNl := 28
  memData := 29
  memAddr := 30
  memCommit := 31

/-- The parameter values of the reference machine, or the spec's own defaults (R6). -/
def Config.default : Config where
  wordBits := 32
  regBits := 64
  nreg := 36
  pcIdx := 27
  cap := 1048576
  immBits := 15
  clearCode := 256
  newlineCode := 10
  map := RegMap.default
  operandTriggers := .both
  arithOverflow := .fault
  regInit := 0
  entry := 0
  memInit := 0
  loadBase := 0

/-- The register index of a role (R14). -/
def Config.index (cfg : Config) : Role → Nat
  | .addA => cfg.map.addA
  | .addB => cfg.map.addB
  | .addR => cfg.map.addR
  | .subA => cfg.map.subA
  | .subB => cfg.map.subB
  | .subR => cfg.map.subR
  | .mulA => cfg.map.mulA
  | .mulB => cfg.map.mulB
  | .mulR => cfg.map.mulR
  | .divN => cfg.map.divN
  | .divD => cfg.map.divD
  | .divQ => cfg.map.divQ
  | .divRem => cfg.map.divRem
  | .ltA => cfg.map.ltA
  | .ltB => cfg.map.ltB
  | .ltR => cfg.map.ltR
  | .selCond => cfg.map.selCond
  | .selIfZero => cfg.map.selIfZero
  | .selIfNonzero => cfg.map.selIfNonzero
  | .selR => cfg.map.selR
  | .conOut => cfg.map.conOut
  | .conIn => cfg.map.conIn
  | .secOut => cfg.map.secOut
  | .secNl => cfg.map.secNl
  | .memData => cfg.map.memData
  | .memAddr => cfg.map.memAddr
  | .memCommit => cfg.map.memCommit
  | .pc => cfg.pcIdx

/-- Every role but the program counter (R33, R34). -/
def Role.ported : List Role :=
  [.addA, .addB, .addR, .subA, .subB, .subR, .mulA, .mulB, .mulR] ++
  [.divN, .divD, .divQ, .divRem, .ltA, .ltB, .ltR] ++
  [.selCond, .selIfZero, .selIfNonzero, .selR] ++
  [.conOut, .conIn, .secOut, .secNl, .memData, .memAddr, .memCommit]

/-- Every role (R33, R34). -/
def Role.all : List Role := .pc :: Role.ported

/-- The three pairs of roles that may share an index (R35, clause 3). -/
def Role.mayShare : Role → Role → Bool
  | .memCommit, .memData => true
  | .memData, .memCommit => true
  | .conIn, .conOut => true
  | .conOut, .conIn => true
  | .secNl, .secOut => true
  | .secOut, .secNl => true
  | _, _ => false

/-- R35, clause 1: every role index is below `NREG`. -/
def Config.rolesInRange (cfg : Config) : Bool :=
  Role.all.all fun r => decide (cfg.index r < cfg.nreg)

/-- R35, clause 2: `PC_IDX` is no role's index except `PC`. -/
def Config.pcApart (cfg : Config) : Bool :=
  Role.ported.all fun r => decide (cfg.index r ≠ cfg.pcIdx)

/-- R35, clause 3: role indices are pairwise distinct, except the three pairs that may share one. -/
def Config.rolesDistinct (cfg : Config) : Bool :=
  Role.ported.all fun r => Role.ported.all fun q =>
    decide (r = q) || r.mayShare q || decide (cfg.index r ≠ cfg.index q)

/-- R35, clause 4: the fixed indices of R33 hold. -/
def Config.fixedIndices (cfg : Config) : Bool :=
  decide (cfg.map.addA = 0) && decide (cfg.map.addB = 1) && decide (cfg.map.addR = 2) &&
  decide (cfg.map.selCond = 20) && decide (cfg.map.selIfZero = 21) &&
  decide (cfg.map.selIfNonzero = 22) && decide (cfg.map.selR = 23) && decide (cfg.pcIdx = 27)

/-- The range of `CAP` (R6, D25). -/
def Config.capInRange (cfg : Config) : Bool := decide (1 ≤ cfg.cap) && decide (cfg.cap ≤ 2 ^ 63 - 1)

/-- The widths at which the rules are written: words of 32 bits (R42, R60, R90), registers of 64 (R9, R30) and
immediates of 15 (R91, R92). The spec gives no rule for any other width (log 2). -/
def Config.widthsAsRuled (cfg : Config) : Bool :=
  decide (cfg.wordBits = 32) && decide (cfg.regBits = 64) && decide (cfg.immBits = 15)

/-- The configurations of which this spec speaks: a map that meets R35, and a capacity and widths that meet R6. -/
def Config.conforming (cfg : Config) : Bool :=
  cfg.rolesInRange && cfg.pcApart && cfg.rolesDistinct && cfg.fixedIndices && cfg.capInRange && cfg.widthsAsRuled

/-- The phase discriminator of R16: `read` is 0, `write` is 1. -/
inductive Phase where
  | read
  | write
  deriving DecidableEq, Repr

/-- The twelve operations of the catalogue (R118). -/
inductive Op where
  | add | sub | mul | div | lt | sel | conOut | conIn | secOut | secNl | memStore | memLoad
  deriving DecidableEq, Repr

/-- One row of the catalogue: the operation, its phase, and the roles it is registered on (R118). -/
structure CatalogueRow where
  op : Op
  phase : Phase
  on : List Role
  deriving DecidableEq, Repr

/-- `TRIG` of R130: which of a binary operation's operand registers fire it. -/
def OperandTriggers.trig : OperandTriggers → Role → Role → List Role
  | .both, first, second => [first, second]
  | .secondOnly, _, second => [second]

/-- The operation catalogue, in registration order (R118). -/
def catalogue (t : OperandTriggers) : List CatalogueRow :=
  [⟨.add, .write, t.trig .addA .addB⟩,
   ⟨.sub, .write, t.trig .subA .subB⟩,
   ⟨.mul, .write, t.trig .mulA .mulB⟩,
   ⟨.div, .write, t.trig .divN .divD⟩,
   ⟨.lt, .write, t.trig .ltA .ltB⟩,
   ⟨.sel, .read, [.selR]⟩,
   ⟨.conOut, .write, [.conOut]⟩,
   ⟨.conIn, .read, [.conIn]⟩,
   ⟨.secOut, .write, [.secOut]⟩,
   ⟨.secNl, .read, [.secNl]⟩,
   ⟨.memStore, .write, [.memCommit]⟩,
   ⟨.memLoad, .read, [.memData]⟩]

/-- One entry of the trigger tables: an operation registered for an index and a phase (R113). -/
structure Registration where
  index : Nat
  phase : Phase
  op : Op
  deriving DecidableEq, Repr

/-- The trigger tables, as the list of all registrations in the order they were made (R45, R113). -/
abbrev TriggerTables := List Registration

/-- `register_trigger(index, phase, op)` appends (R113). -/
def TriggerTables.register (t : TriggerTables) (index : Nat) (phase : Phase) (op : Op) : TriggerTables :=
  t ++ [⟨index, phase, op⟩]

/-- The read list or the write list of an index, in registration order (R45). -/
def TriggerTables.of (t : TriggerTables) (phase : Phase) (index : Nat) : List Op :=
  (t.filter fun e => decide (e.phase = phase) && decide (e.index = index)).map (·.op)

/-- Registers one catalogue row: its operation on each of its registers, in order (R118). -/
def registerRow (cfg : Config) (t : TriggerTables) (row : CatalogueRow) : TriggerTables :=
  row.on.foldl (fun t r => t.register (cfg.index r) row.phase row.op) t

/-- Step 3 of initialization (R245): the whole catalogue, in order. The tables are a function of the configuration
(R45; log 22). -/
def Config.triggerTables (cfg : Config) : TriggerTables :=
  (catalogue cfg.operandTriggers).foldl (registerRow cfg) []

/-- `read_triggers[i]` (R112). -/
def Config.readTriggers (cfg : Config) (i : Nat) : List Op := cfg.triggerTables.of .read i

/-- `write_triggers[i]` (R111). -/
def Config.writeTriggers (cfg : Config) (i : Nat) : List Op := cfg.triggerTables.of .write i

/-- A plain register: a slot of the file that is no role's index (R36). -/
def Config.plain (cfg : Config) (i : Nat) : Bool :=
  decide (i < cfg.nreg) && Role.all.all fun r => decide (cfg.index r ≠ i)

end Sys2Proof
end

