-- ==== Sys2Proof/Machine/State.lean ====
section
/-! DEFINITION. The state of CORE as plain data (10_state.md), the fault record, the I/O events, the reasons a step
can stop, and the state after initialization (R49, R245). -/

namespace Sys2Proof.Machine

open Sys2Proof

/-- The output port an event or a fault names (R13, R160). -/
inductive Port where
  | primary
  | secondary
  deriving DecidableEq, Repr

/-- An output event handed to the host (R13, R160). -/
inductive Output where
  /-- `Char(port, c)`, with `c` the character's code -/
  | char (port : Port) (c : Nat)
  /-- `Clear`, the clear-screen signal (R167) -/
  | clear
  deriving DecidableEq, Repr

/-- An entry of the I/O trace (R46, R166). -/
inductive Event where
  /-- `Poll()` with its answer -/
  | poll (answer : Option Byte)
  /-- `Emit(e)` -/
  | emit (e : Output)
  deriving DecidableEq, Repr

/-- The operations whose overflow a fault can name (R221, code 4). -/
inductive ArithOp where
  | add
  | sub
  | mul
  deriving DecidableEq, Repr

/-- The fault kinds with the info each records (R221). -/
inductive FaultCause where
  /-- `BAD_REGISTER`: the index (R222) -/
  | badRegister (index : Nat)
  /-- `BAD_MEM_ADDRESS`: `x[MEM_ADDR]` (R223) -/
  | badMemAddress (a : I64)
  /-- `BAD_CHAR`: the port and the value (R224) -/
  | badChar (port : Port) (v : I64)
  /-- `ARITH_OVERFLOW`: the operation and both operands (R225) -/
  | arithOverflow (op : ArithOp) (a b : I64)
  /-- `DIV_OVERFLOW`: dividend and divisor (R226) -/
  | divOverflow (n d : I64)
  deriving DecidableEq, Repr

/-- `status` (R44). -/
inductive Status where
  | running
  /-- `Halted(t, p)`: the normal end, with the reported tick count and counter (R207) -/
  | halted (ticks : Nat) (pc : I64)
  /-- `Faulted(kind, info)`: the abnormal end (R220) -/
  | faulted (cause : FaultCause)
  deriving DecidableEq, Repr

/-- A listed memory word: its index and its content (R42). The word is the smallest unit that exists (R60;
log 6). -/
abbrev Cell := Nat × Word

/-- Memory: the words that differ from `MEM_INIT`, by strictly rising index (`Memory.wf` in Ops.lean); every other
word of `0 .. CAP-1` holds `MEM_INIT` (R49; log 5, 6). -/
abbrev Memory := List Cell

/-- The machine's state: everything 10_state.md gives it. -/
structure State where
  /-- the parameters of R6, from which the trigger tables are made (R45; log 1, 22) -/
  cfg : Config
  /-- the register buffer `x`, the program counter among its slots (R30, R37) -/
  regs : List I64
  /-- `mem` (R42) -/
  mem : Memory
  /-- the tick counter (R43) -/
  ticks : Nat
  /-- the run status (R44) -/
  status : Status
  /-- the I/O trace, oldest event first (R46, R166) -/
  trace : List Event
  /-- MODEL'S OWN (log 8): the host's answers to the coming polls, as far as they are written down, oldest first -/
  inputs : List (Option Byte)
  /-- MODEL'S OWN (log 8): how many polls `Config.hostAnswer` has answered -/
  freeDraws : Nat
  deriving DecidableEq, Repr

/-- Why `step` gives no next state because the machine has stopped for good (R12, R44). No meaning of an instruction
raises either: an instruction that faults takes a next state whose status records the fault (R220; log 7). -/
inductive Fault where
  /-- Raised by `step` alone, in a state whose status is `Halted(t, p)`: the run has ended and no further step
  exists (R12, R44, R207). Safe. -/
  | afterHalt (ticks : Nat) (pc : I64)
  /-- Raised by `step` alone, in a state whose status is `Faulted(kind, info)`: the machine stopped with a fault and
  no further step exists (R12, R44, R220). Safe. -/
  | afterFault (cause : FaultCause)
  deriving DecidableEq, Repr

/-- Why `step` or `exec` has no meaning to give. -/
inductive Refusal where
  /-- Raised by `exec` alone, for an instruction that has no meaning yet; no arm uses it. Safe. -/
  | notModelled (mnemonic : String)
  /-- Raised by `step` alone, in a running state whose configuration breaks R35 ("A model refuses a map that breaks
  one"), the range of `CAP` in R6, or has a width of R6 for which the spec gives no rule (log 2, 12). Safe. -/
  | nonConformingConfig
  deriving DecidableEq, Repr

/-- The machine after initialization with no image loaded: steps 1 to 3 and 5 of R245, values of R49. -/
def State.blank (cfg : Config) : State where
  cfg := cfg
  regs := (List.replicate cfg.nreg cfg.regInit).set cfg.pcIdx cfg.entry
  mem := []
  ticks := 0
  status := .running
  trace := []
  inputs := []
  freeDraws := 0

/-- The machine right after reset: the default parameters and no program image (R49; log 4, 5, 10). A run of a
program starts in `State.init` (Ops.lean), which loads its image as well. -/
def State.reset : State := State.blank Config.default

end Sys2Proof.Machine
end

