-- ==== Sys2Proof/Machine/Ops.lean ====
section
/-! DEFINITION. The named operations over memory, registers, the host interface and the run status (00_scope.md
R10 to R13, 20_memory.md), taking a fault (R220, R228), and initialization (R77, R245). -/

namespace Sys2Proof.Machine

open Sys2Proof

/-! ### Memory as data -/

/-- `mem[k]`, where `d` is `MEM_INIT`, the content of every word that is not listed. -/
def Memory.read (d : Word) : Memory → Nat → Word
  | [], _ => d
  | (a, w) :: m, k => if a = k then w else Memory.read d m k

/-- `mem[k] <- v`, keeping the canonical form: a word that holds `MEM_INIT` is not listed. -/
def Memory.write (d : Word) : Memory → Nat → Word → Memory
  | [], k, v => if v = d then [] else [(k, v)]
  | (a, w) :: m, k, v =>
    if k < a then (if v = d then (a, w) :: m else (k, v) :: (a, w) :: m)
    else if k = a then (if v = d then m else (k, v) :: m)
    else (a, w) :: Memory.write d m k v

/-- Strictly rising indices, all of them at or above `lo` and below `cap`, and no word listed that holds `d`. -/
def Memory.wfFrom (d : Word) (cap : Nat) : Nat → Memory → Bool
  | _, [] => true
  | lo, (a, w) :: m => decide (lo ≤ a) && decide (a < cap) && decide (w ≠ d) && Memory.wfFrom d cap (a + 1) m

/-- The canonical form of a memory of `cap` words whose unlisted words hold `d`. -/
def Memory.wf (d : Word) (cap : Nat) (m : Memory) : Bool := Memory.wfFrom d cap 0 m

/-- The fill loop of `load_program` from word `k` on (R77): whole groups of four bytes, up to the end of the buffer
or of memory. -/
def Memory.load (d : Word) (cap : Nat) : List Byte → Nat → Memory → Memory
  | b0 :: b1 :: b2 :: b3 :: rest, k, m =>
    if k < cap then Memory.load d cap rest (k + 1) (m.write d k (packWord b0 b1 b2 b3)) else m
  | _, _, m => m

/-! ### The register buffer: plain accesses (R10) -/

/-- `x[i]`. Outside the buffer, where no access of CORE reaches, it is 0 (log 20). -/
def State.reg (s : State) (i : Nat) : I64 := s.regs.getD i 0

/-- `x[i] <- v`. Outside the buffer, where no access of CORE reaches, it changes nothing (log 20). -/
def State.setReg (s : State) (i : Nat) (v : I64) : State := { s with regs := s.regs.set i v }

/-- `x[ROLE]` (R14). -/
def State.role (s : State) (r : Role) : I64 := s.reg (s.cfg.index r)

/-- `x[ROLE] <- v` (R14). -/
def State.setRole (s : State) (r : Role) (v : I64) : State := s.setReg (s.cfg.index r) v

/-- `pc`, that is `x[PC_IDX]` (R10, R37). -/
def State.pc (s : State) : I64 := s.reg s.cfg.pcIdx

/-- `pc <- v` (R10). -/
def State.setPc (s : State) (v : I64) : State := s.setReg s.cfg.pcIdx v

/-! ### Memory accesses (R63 to R67) -/

/-- `mem[k]` (R11). -/
def State.word (s : State) (k : Nat) : Word := s.mem.read s.cfg.memInit k

/-- `mem[k] <- v` (R11). -/
def State.setWord (s : State) (k : Nat) (v : Word) : State :=
  { s with mem := s.mem.write s.cfg.memInit k v }

/-- `load_word(k)` (R63); its caller has checked `k < CAP`. -/
def State.loadWord (s : State) (k : Nat) : Word := s.word k

/-- `load_instruction(k)` (R64). -/
def State.loadInstruction (s : State) (k : Nat) : Half × Half :=
  (srcField (s.loadWord k), dstField (s.loadWord k))

/-- `load_double(a)`: the word pair `2a`, `2a+1`, high word first (R65). -/
def State.loadDouble (s : State) (a : Nat) : BitVec 64 :=
  (s.word (2 * a) ++ s.word (2 * a + 1)).cast (by decide)

/-- `store_double(a, v)`: `mem[2a] <- v[63:32]`, `mem[2a+1] <- v[31:0]` (R66). -/
def State.storeDouble (s : State) (a : Nat) (v : BitVec 64) : State :=
  (s.setWord (2 * a) (v.extractLsb' 32 32)).setWord (2 * a + 1) (v.extractLsb' 0 32)

/-- The pair index a register value names, if it is valid: `0 <= a` and `2a + 1 <= CAP - 1`, on integers (R67). -/
def pairIndex (cap : Nat) (a : I64) : Option Nat :=
  if 0 ≤ a.toInt ∧ 2 * a.toInt + 1 ≤ (cap : Int) - 1 then some a.toInt.toNat else none

/-! ### The host's capability (R13, R160, R166) -/

/-- `Emit(e)`: hands the event to the host; it never fails (R160). -/
def State.emit (s : State) (e : Output) : State := { s with trace := s.trace ++ [.emit e] }

/-- The answer the host gives the next poll: the next written one, or else the free value (D22; log 8). -/
def State.nextAnswer (s : State) : Option Byte :=
  match s.inputs with
  | answer :: _ => answer
  | [] => Config.hostAnswer s.freeDraws

/-- The host's side of one poll: the written answer is used up, or one free value is (log 8). -/
def State.drawAnswer (s : State) : State :=
  match s.inputs with
  | _ :: rest => { s with inputs := rest }
  | [] => { s with freeDraws := s.freeDraws + 1 }

/-- The state after `Poll()`: the answer is drawn and recorded in the trace (R166). -/
def State.poll (s : State) : State :=
  { s.drawAnswer with trace := s.trace ++ [.poll s.nextAnswer] }

/-! ### What runs inside a tick -/

/-- The result of an access or a trigger: done, with a value and the state it leaves, or a fault raised with its
cause and the state as the completed primitives left it (R117, R228). -/
inductive Run (α : Type) where
  | done (a : α) (s : State)
  | raised (f : FaultCause) (s : State)
  deriving DecidableEq, Repr

/-- What follows happens only when nothing was raised (R117). -/
def Run.andThen {α β : Type} : Run α → (α → State → Run β) → Run β
  | .done a s, f => f a s
  | .raised c s, _ => .raised c s

/-! ### The end of a run (R12, R44) -/

/-- TAKING A FAULT, the one shared operation (R220): `status <- Faulted(kind, info)`. The rest of the state stays as
the primitives completed before left it, and `ticks` is not incremented (R228). CORE saves no register, enters no
handler and has no return from a fault (R220, R232), so nothing stands beside this operation. -/
def State.takeFault (s : State) (c : FaultCause) : State := { s with status := .faulted c }

/-- `halt(ticks, p)`: the normal end, which reports the tick count and the counter (R12, R197, R207). -/
def State.halt (s : State) : State := { s with status := .halted s.ticks s.pc }

/-- The counter addresses a word of memory: `0 <= p < CAP` (R197). -/
def State.pcInRange (s : State) : Bool := decide (0 ≤ s.pc.toInt) && decide (s.pc.toInt < (s.cfg.cap : Int))

/-- The word index of the current instruction, for a counter in range (R37). -/
def State.pcIndex (s : State) : Nat := s.pc.toInt.toNat

/-- The word step 3 fetches (R198). -/
def State.fetchWord (s : State) : Word := s.loadWord s.pcIndex

/-- Step 3 of the tick: fetch the word at the counter, split it and decode it (R195, R198). -/
def State.fetch (s : State) : Instr :=
  decodeFields (s.loadInstruction s.pcIndex).1 (s.loadInstruction s.pcIndex).2

/-- Step 5 of the tick: `x[PC_IDX] <- p + 1`, a plain write (R195, R201; log 21). -/
def State.advance (s : State) (p : I64) : State := s.setPc (p + 1)

/-- Step 7 of the tick: `ticks <- ticks + 1` (R203). -/
def State.countTick (s : State) : State := { s with ticks := s.ticks + 1 }

/-- The end of a tick's steps 4 to 7: a tick that completed is counted, a fault is taken (R195, R203, R220). -/
def finishTick : Run Unit → Host.Outcome State Fault Refusal
  | .done _ s => .next s.countTick
  | .raised c s => .next (s.takeFault c)

/-! ### What the host is told at the end (R207, R220, R241) -/

/-- The code of a fault kind (R221, D18). -/
def FaultCause.code : FaultCause → Nat
  | .badRegister _ => 1
  | .badMemAddress _ => 2
  | .badChar _ _ => 3
  | .arithOverflow _ _ _ => 4
  | .divOverflow _ _ => 5

/-- The exit report, the tick count and the final counter: there is one exactly when the machine has halted
(R207, R241). -/
def State.exitReport (s : State) : Option (Nat × I64) :=
  match s.status with
  | .halted t p => some (t, p)
  | .running => none
  | .faulted _ => none

/-- The fault the host sees as the final outcome (R220, R241). -/
def State.faultReport (s : State) : Option FaultCause :=
  match s.status with
  | .faulted c => some c
  | .running => none
  | .halted _ _ => none

/-- The output events of a trace, in order: what reaches the host's output capability (R160, R254). -/
def outputsOf : List Event → List Output
  | [] => []
  | .emit e :: rest => e :: outputsOf rest
  | .poll _ :: rest => outputsOf rest

/-- The answers of the polls of a trace, in order (R166). -/
def answersOf : List Event → List (Option Byte)
  | [] => []
  | .poll a :: rest => a :: answersOf rest
  | .emit _ :: rest => answersOf rest

/-! ### Initialization (R77, R245) -/

/-- `load_program(bytes, base)` (R77). -/
def State.loadProgram (s : State) (bytes : List Byte) (base : Nat) : State :=
  { s with mem := Memory.load s.cfg.memInit s.cfg.cap bytes base s.mem }

/-- Initialization: the blank machine, with the image loaded at `LOAD_BASE` before the first tick (R245). -/
def State.init (cfg : Config) (image : List Byte) : State :=
  (State.blank cfg).loadProgram image cfg.loadBase

end Sys2Proof.Machine
end

