-- ==== Sys2Proof/Machine/Flags.lean ====
section
/-! DEFINITION. CORE has no flags or condition codes (R40). What other machines put into flags, it puts into result
registers or into a fault: whether a result fits an i64 (R9, R131), the quotient and remainder (R135), the outcome of
a comparison (R136), and whether a value is a character (R161). These are computed here, on integers (R9). -/

namespace Sys2Proof.Machine

open Sys2Proof

/-- `fits64(n)` (R9). -/
def fits64 (n : Int) : Bool := decide (-2 ^ 63 ≤ n) && decide (n ≤ 2 ^ 63 - 1)

/-- `wrap64(n)`, the i64 that equals `n` modulo 2^64 (R9). -/
def wrap64 (n : Int) : I64 := BitVec.ofInt 64 n

/-- `narrow(op, a, b, n)` (R131). -/
def narrow (policy : OverflowPolicy) (op : ArithOp) (a b : I64) (n : Int) : Except FaultCause I64 :=
  if fits64 n then .ok (wrap64 n)
  else
    match policy with
    | .wrap => .ok (wrap64 n)
    | .fault => .error (.arithOverflow op a b)

/-- The exact result of an operation that R131 narrows (R132, R133, R134). -/
def ArithOp.exact : ArithOp → I64 → I64 → Int
  | .add, a, b => a.toInt + b.toInt
  | .sub, a, b => a.toInt - b.toInt
  | .mul, a, b => a.toInt * b.toInt

/-- Quotient and remainder (R135): `n` and 0 for a zero divisor, the fault for -2^63 / -1, else the quotient
truncated toward zero (`tdiv` of R9) and the remainder (`trem`). -/
def divide (n d : I64) : Except FaultCause (I64 × I64) :=
  if d.toInt = 0 then .ok (n, 0)
  else if n.toInt = -2 ^ 63 ∧ d.toInt = -1 then .error (.divOverflow n d)
  else
    let q := n.toInt.tdiv d.toInt
    .ok (wrap64 q, wrap64 (n.toInt - d.toInt * q))

/-- The less-than result register's value: 1 or 0, compared as signed (R136). -/
def lessThan (a b : I64) : I64 := if a.toInt < b.toInt then 1 else 0

/-- `valid_char(v)`: a Unicode scalar value, tested on the whole i64 (R161, D11; log 18). -/
def validChar (v : I64) : Bool :=
  decide (0 ≤ v.toInt) && decide (v.toInt ≤ 0x10FFFF) &&
    !(decide (0xD800 ≤ v.toInt) && decide (v.toInt ≤ 0xDFFF))

end Sys2Proof.Machine
end

