-- ==== Sys2Proof/Machine/Arithmetic.lean ====
section
/-! DEFINITION. The write-triggered binary operations of the catalogue, rows 1 to 5 of R118 (41_arithmetic.md).
Operands are read from the buffer when the trigger runs (R130). -/

namespace Sys2Proof.Machine

open Sys2Proof

/-- Shared by add, subtract and multiply: the result register receives the narrowed exact result, or keeps its value
while the overflow fault is raised (R131). -/
def narrowedInto (op : ArithOp) (first second result : Role) (s : State) : Run Unit :=
  match narrow s.cfg.arithOverflow op (s.role first) (s.role second)
      (op.exact (s.role first) (s.role second)) with
  | .ok v => .done () (s.setRole result v)
  | .error c => .raised c s

/-- `ADD` (R132). -/
def opAdd (s : State) : Run Unit := narrowedInto .add .addA .addB .addR s

/-- `SUB` (R133). -/
def opSub (s : State) : Run Unit := narrowedInto .sub .subA .subB .subR s

/-- `MUL` (R134). -/
def opMul (s : State) : Run Unit := narrowedInto .mul .mulA .mulB .mulR s

/-- `DIV` (R135). -/
def opDiv (s : State) : Run Unit :=
  match divide (s.role .divN) (s.role .divD) with
  | .ok (q, r) => .done () ((s.setRole .divQ q).setRole .divRem r)
  | .error c => .raised c s

/-- `LT` (R136). -/
def opLt (s : State) : Run Unit := .done () (s.setRole .ltR (lessThan (s.role .ltA) (s.role .ltB)))

end Sys2Proof.Machine
end

