-- ==== Sys2Proof/Machine/Console.lean ====
section
/-! DEFINITION. Console and secondary I/O, rows 7 to 10 of R118 (43_console_io.md). -/

namespace Sys2Proof.Machine

open Sys2Proof

/-- Emits a register value as a character on a port, or raises `BAD_CHAR` (R161, R224). -/
def emitChar (port : Port) (v : I64) (s : State) : Run Unit :=
  if validChar v then .done () (s.emit (.char port v.toInt.toNat)) else .raised (.badChar port v) s

/-- `CONOUT` (R162): the clear code becomes `Clear` (R167; log 17). -/
def opConOut (s : State) : Run Unit :=
  if s.role .conOut = s.cfg.clearCode then .done () (s.emit .clear)
  else emitChar .primary (s.role .conOut) s

/-- The register value of a poll's answer: the byte, zero-extended, or -1 (R163). -/
def answerValue : Option Byte → I64
  | some b => b.setWidth 64
  | none => -1

/-- `CONIN` (R163): polls once and stores the answer's value. -/
def opConIn (s : State) : Run Unit := .done () (s.poll.setRole .conIn (answerValue s.nextAnswer))

/-- `SECOUT` (R164): no clear-screen case (C4). -/
def opSecOut (s : State) : Run Unit := emitChar .secondary (s.role .secOut) s

/-- `SECNL` (R165). -/
def opSecNl (s : State) : Run Unit := .done () (s.setRole .secNl s.cfg.newlineCode)

end Sys2Proof.Machine
end

