-- ==== Sys2Proof/Machine/MemoryPort.lean ====
section
/-! DEFINITION. The memory port, rows 11 and 12 of R118 (44_memory_port.md). -/

namespace Sys2Proof.Machine

open Sys2Proof

/-- `check(a)` of `a = x[MEM_ADDR]` at the time the trigger runs (R181). -/
def checkedPair (s : State) : Except FaultCause Nat :=
  match pairIndex s.cfg.cap (s.role .memAddr) with
  | some a => .ok a
  | none => .error (.badMemAddress (s.role .memAddr))

/-- `MEMSTORE` (R182): the value written to `MEM_COMMIT` is not used (D24). -/
def opMemStore (s : State) : Run Unit :=
  match checkedPair s with
  | .ok a => .done () (s.storeDouble a (s.role .memData))
  | .error c => .raised c s

/-- `MEMLOAD` (R183). -/
def opMemLoad (s : State) : Run Unit :=
  match checkedPair s with
  | .ok a => .done () (s.setRole .memData (s.loadDouble a))
  | .error c => .raised c s

end Sys2Proof.Machine
end

