-- ==== Sys2Proof/Machine/Select.lean ====
section
/-! DEFINITION. Conditional select, row 6 of R118 (42_select.md). -/

namespace Sys2Proof.Machine

open Sys2Proof

/-- The value select gives: `SEL_IFZERO` if `SEL_COND` is 0, else `SEL_IFNONZERO` (R150). -/
def State.selected (s : State) : I64 :=
  if s.role .selCond = 0 then s.role .selIfZero else s.role .selIfNonzero

/-- `SEL`, a read-trigger on `SEL_R` (R150). -/
def opSel (s : State) : Run Unit := .done () (s.setRole .selR s.selected)

end Sys2Proof.Machine
end

