-- ==== Sys2Proof/Machine/Operands.lean ====
section
/-! DEFINITION. The dispatching accesses `Get` and `Set` with the triggers they run (R110 to R117), and the operand
forms of a MOVE: the immediate, the register source and the destination (R92, R93, R94). -/

namespace Sys2Proof.Machine

open Sys2Proof

/-- Runs one catalogue operation. It receives the phase discriminator (R114); no operation reads it, since each is
registered in one phase only. Its own register accesses are plain: triggers do not cascade (R115). -/
def runTrigger (_phase : Phase) : Op → State → Run Unit
  | .add, s => opAdd s
  | .sub, s => opSub s
  | .mul, s => opMul s
  | .div, s => opDiv s
  | .lt, s => opLt s
  | .sel, s => opSel s
  | .conOut, s => opConOut s
  | .conIn, s => opConIn s
  | .secOut, s => opSecOut s
  | .secNl, s => opSecNl s
  | .memStore, s => opMemStore s
  | .memLoad, s => opMemLoad s

/-- Runs a trigger list in registration order; a trigger that faults ends it (R111, R112, R117). -/
def runTriggers (phase : Phase) : List Op → State → Run Unit
  | [], s => .done () s
  | op :: rest, s => (runTrigger phase op s).andThen fun _ t => runTriggers phase rest t

/-- `Get(i)`: the index check, the read-triggers of `i`, then `x[i]` as it stands after them (R112). -/
def regGet (i : Nat) (s : State) : Run I64 :=
  if s.cfg.nreg ≤ i then .raised (.badRegister i) s
  else (runTriggers .read (s.cfg.readTriggers i) s).andThen fun _ t => .done (t.reg i) t

/-- `Set(i, v)`: the index check, the store, then the write-triggers of `i` (R111). -/
def regSet (i : Nat) (v : I64) (s : State) : Run Unit :=
  if s.cfg.nreg ≤ i then .raised (.badRegister i) s
  else runTriggers .write (s.cfg.writeTriggers i) (s.setReg i v)

/-- The immediate operand: `zext_64(S)`; no register is read and no trigger runs (R92). -/
def immediateOperand (n : Nat) (s : State) : Run I64 := .done (BitVec.ofNat 64 n) s

/-- The register operand: `Get(S)` (R93). -/
def registerOperand (i : Nat) (s : State) : Run I64 := regGet i s

/-- Step 4 of the tick: an instruction's operand (R195). -/
def operandOf : Instr → State → Run I64
  | .movImm n _, s => immediateOperand n s
  | .movReg r _, s => registerOperand r s

/-- Steps 5 and 6 of the tick whose instruction stood at `p`: advance the counter, then write the destination
(R195, R201, R202). -/
def deliver (p : I64) (dst : Nat) (v : I64) (s : State) : Run Unit := regSet dst v (s.advance p)

end Sys2Proof.Machine
end

