-- ==== Sys2Proof/Machine/Move.lean ====
section
/-! DEFINITION. The meanings of the two forms of MOVE: steps 4 to 7 of the tick (R195, R199, R200). `p` is the counter
as it stands when the meaning starts, the index of the instruction itself (R37). -/

namespace Sys2Proof.Machine

open Sys2Proof

/-- `mov #imm, rD` (R199). -/
def execMovImm (imm dst : Nat) (s : State) : Host.Outcome State Fault Refusal :=
  finishTick ((immediateOperand imm s).andThen fun v t => deliver s.pc dst v t)

/-- `mov rS, rD` (R200). -/
def execMovReg (src dst : Nat) (s : State) : Host.Outcome State Fault Refusal :=
  finishTick ((registerOperand src s).andThen fun v t => deliver s.pc dst v t)

end Sys2Proof.Machine
end

