-- ==== Sys2Proof/Machine/Dispatch.lean ====
section
/-! DEFINITION. One arm per instruction: each calls its meaning. -/

namespace Sys2Proof.Machine

open Sys2Proof

def exec (i : Instr) (s : State) : Host.Outcome State Fault Refusal :=
  match i with
  | .movImm imm dst => Sys2Proof.Machine.execMovImm imm dst s
  | .movReg src dst => Sys2Proof.Machine.execMovReg src dst s

end Sys2Proof.Machine
end

