-- ==== Sys2Proof/Machine/Step.lean ====
section
/-! DEFINITION. One tick (R195), and a state with an instruction placed where the next tick fetches it. -/

namespace Sys2Proof.Machine

open Sys2Proof

/-- One tick (R195): it runs only while the status is `Running` (R44), under a configuration that the spec admits
(R35; log 2, 12); it halts when the counter is outside memory (R197), else it fetches, decodes and executes (R198 to R203). -/
def step (s : State) : Host.Outcome State Fault Refusal :=
  match s.status with
  | .halted t p => .fault (.afterHalt t p)
  | .faulted c => .fault (.afterFault c)
  | .running =>
    if s.cfg.conforming then
      if s.pcInRange then exec s.fetch s else .next s.halt
    else .refused .nonConformingConfig

/-- The instruction of the low `nbits` bits of `w`, stored at the word the next tick fetches (log 10). A counter
outside memory fetches nothing, and then nothing is stored (log 11). -/
def State.withFetchWord (s : State) (nbits w : Nat) : State :=
  if s.pcInRange then s.setWord s.pcIndex (tableWord nbits w) else s

end Sys2Proof.Machine
end

