-- ==== Sys2Proof/Machine/Assembly.lean ====
section
/-! DEFINITION. The spec's assembly notation (R99) and its pseudo-instructions as the MOVEs they expand to (R100).
Both are the spec's own notation (D20) and have no semantics of their own. -/

namespace Sys2Proof

/-- `mov #n, rD` and `mov rS, rD` (R99). -/
def Instr.render : Instr → String
  | .movImm n d => "mov #" ++ toString n ++ ", r" ++ toString d
  | .movReg r d => "mov r" ++ toString r ++ ", r" ++ toString d

namespace Pseudo

/-- `jmp #t` (R100; `t <= 32767`). -/
def jmpImm (cfg : Config) (t : Nat) : List Instr := [.movImm t cfg.pcIdx]

/-- `jmp rS` (R100). -/
def jmpReg (cfg : Config) (r : Nat) : List Instr := [.movReg r cfg.pcIdx]

/-- `nop` (R100; `r16` plain under the map in use). -/
def nop : List Instr := [.movReg 16 16]

/-- `halt` (R100; `CAP <= 32767`). -/
def halt (cfg : Config) : List Instr := [.movImm 32767 cfg.pcIdx]

/-- `halt` for a large `CAP` (R100; `CAP <= 2^20`). -/
def haltLarge (cfg : Config) : List Instr :=
  [.movImm 1024 cfg.map.mulA, .movImm 1024 cfg.map.mulB, .movReg cfg.map.mulR cfg.pcIdx]

/-- `bnz rC, #t, #f` (R100; `t, f <= 32767`). -/
def bnz (cfg : Config) (c t f : Nat) : List Instr :=
  [.movReg c cfg.map.selCond, .movImm f cfg.map.selIfZero, .movImm t cfg.map.selIfNonzero,
   .movReg cfg.map.selR cfg.pcIdx]

/-- `out #c` (R100; `c <= 32767`). -/
def out (cfg : Config) (c : Nat) : List Instr := [.movImm c cfg.map.conOut]

/-- `ld rD, #a` (R100; `a <= 32767`). -/
def ld (cfg : Config) (d a : Nat) : List Instr := [.movImm a cfg.map.memAddr, .movReg cfg.map.memData d]

/-- `st rS, #a` (R100; `a <= 32767`, `MEM_COMMIT != MEM_DATA`). -/
def st (cfg : Config) (r a : Nat) : List Instr :=
  [.movReg r cfg.map.memData, .movImm a cfg.map.memAddr, .movImm 0 cfg.map.memCommit]

end Pseudo

end Sys2Proof
end

