-- ==== Sys2Proof/Safety.lean ====
section
/-! DEFINITION. The terms in which claims about CORE are stated: runs, runs without a fault, the invariant of the
states a run can reach, and which registers only store. -/

namespace Sys2Proof

/-! ### Which registers only store (R41, R120) -/

/-- The roles whose `Set` runs a trigger, by the table of R41; the first operands only under `Both` (R130). -/
def writeFiring : OperandTriggers → List Role
  | .both => [.addA, .addB, .subA, .subB, .mulA, .mulB, .divN, .divD, .ltA, .ltB, .conOut, .secOut, .memCommit]
  | .secondOnly => [.addB, .subB, .mulB, .divD, .ltB, .conOut, .secOut, .memCommit]

/-- The roles whose `Get` runs a trigger, by the table of R41. -/
def readFiring : List Role := [.selR, .conIn, .secNl, .memData]

/-- Writing register `d` only stores. -/
def Config.WriteOnlyStores (cfg : Config) (d : Nat) : Prop :=
  d < cfg.nreg ∧ ∀ r ∈ writeFiring cfg.operandTriggers, cfg.index r ≠ d

/-- Reading register `r` only reads. -/
def Config.ReadOnlyReads (cfg : Config) (i : Nat) : Prop :=
  i < cfg.nreg ∧ ∀ r ∈ readFiring, cfg.index r ≠ i

end Sys2Proof

namespace Sys2Proof.Machine

open Sys2Proof

/-! ### Runs -/

/-- `n` steps from `s`, stopping where a step answers no next state; the same as `Host.Core.run` of `Sys2Proof.core`. -/
def run : Nat → State → Host.Outcome State Fault Refusal
  | 0, s => .next s
  | n + 1, s =>
    match step s with
    | .next t => run n t
    | .fault r => .fault r
    | .refused r => .refused r

/-- `t` follows from `s` by some number of steps. -/
inductive Reaches : State → State → Prop where
  | refl (s : State) : Reaches s s
  | tick {s t u : State} : Reaches s t → step t = .next u → Reaches s u

/-- The machine has not faulted. -/
def State.NoFault (s : State) : Prop := ∀ c, s.status ≠ .faulted c

/-- No fault occurs in the run from `s`: the form in which R228 asks for claims to be stated. -/
def FaultFree (s : State) : Prop := ∀ t, Reaches s t → t.NoFault

/-- Executes a list of instructions one after another, while the machine runs (for the expansions of R100). -/
def execAll : List Instr → State → Host.Outcome State Fault Refusal
  | [], s => .next s
  | i :: rest, s =>
    match exec i s with
    | .next t =>
      match t.status with
      | .running => execAll rest t
      | .halted _ _ => .next t
      | .faulted _ => .next t
    | .fault r => .fault r
    | .refused r => .refused r

/-! ### The invariant -/

/-- A Unicode scalar value (R161). -/
def scalarValue (c : Nat) : Prop := c ≤ 0x10FFFF ∧ ¬ (0xD800 ≤ c ∧ c ≤ 0xDFFF)

/-- What the trace may hold: every character is valid (R161), and the primary port never emits the clear code as a
character (R162). -/
def Event.valid (cfg : Config) : Event → Prop
  | .poll _ => True
  | .emit .clear => True
  | .emit (.char port c) => scalarValue c ∧ (port = .primary → (c : Int) ≠ cfg.clearCode.toInt)

/-- The operand registers of an operation that R131 narrows. -/
def ArithOp.operands : ArithOp → Role × Role
  | .add => (.addA, .addB)
  | .sub => (.subA, .subB)
  | .mul => (.mulA, .mulB)

/-- The register of an output port (R160). -/
def Port.role : Port → Role
  | .primary => .conOut
  | .secondary => .secOut

/-- The recorded fault has its cause in the state it left, and records the info of R221. -/
def FaultCause.genuine (s : State) : FaultCause → Prop
  | .badRegister i => s.cfg.nreg ≤ i
  | .badMemAddress a => a = s.role .memAddr ∧ pairIndex s.cfg.cap a = none
  | .badChar port v => v = s.role port.role ∧ validChar v = false ∧ (port = .primary → v ≠ s.cfg.clearCode)
  | .arithOverflow op a b =>
    a = s.role op.operands.1 ∧ b = s.role op.operands.2 ∧ fits64 (op.exact a b) = false ∧
      s.cfg.arithOverflow = .fault
  | .divOverflow n d => n = s.role .divN ∧ d = s.role .divD ∧ n.toInt = -2 ^ 63 ∧ d.toInt = -1

/-- The invariant of CORE's states: the configuration conforms (R35), the buffer has `NREG` slots (R30), memory is in
canonical form and within `CAP` (R42), the trace holds valid events, a halt was reported truly (R207), and a fault is
genuine (R221). -/
structure State.Inv (s : State) : Prop where
  conforming : s.cfg.conforming = true
  buffer : s.regs.length = s.cfg.nreg
  memory : s.mem.wf s.cfg.memInit s.cfg.cap = true
  trace : ∀ e ∈ s.trace, e.valid s.cfg
  halt : ∀ t p, s.status = .halted t p → t = s.ticks ∧ p = s.pc ∧ s.pcInRange = false
  fault : ∀ c, s.status = .faulted c → c.genuine s

end Sys2Proof.Machine
end

