-- ==== Sys2Proof/Certificates/Slice0/Obligations.lean ====
section
/-! DEFINITION. The statements for the provers, each with the rule it formalises. They hold for every configuration that
meets R35 and R6 unless they say otherwise. -/

namespace Sys2Proof.Machine

open Sys2Proof

/-! ### Terms of the statements -/

/-- At `s` the instruction `i`, of either form, has operand `v` and destination `d`; step 4 of the tick leaves `s1`
(R195). -/
structure Moves (s : State) (i : Instr) (v : I64) (d : Nat) (s1 : State) : Prop where
  wellFormed : i.wellFormed = true
  dst : i.dst = d
  operand : operandOf i s = .done v s1

/-- The state in which the write-triggers of `d` run: after step 4 left `s1`, the counter advanced and `v` stored
(R195 steps 5 and 6, R111). -/
def written (s s1 : State) (d : Nat) (v : I64) : State := (s1.setPc (s.pc + 1)).setReg d v

/-- A MOVE whose source is the role `r`, to any destination, has operand `v` and leaves `s1` after step 4; where the
destination only stores, it completes. -/
def ReadsAs (s : State) (r : Role) (v : I64) (s1 : State) : Prop :=
  ∀ d, operandOf (.movReg (s.cfg.index r) d) s = .done v s1 ∧
    (s.cfg.WriteOnlyStores d →
      exec (.movReg (s.cfg.index r) d) s = .next (written s s1 d v).countTick)

/-- The destination is one of the operand registers that fire the operation on `a` and `b` (R130). -/
def Fires (s : State) (a b : Role) (d : Nat) : Prop :=
  d ∈ (s.cfg.operandTriggers.trig a b).map s.cfg.index

/-- The rule shared by R132, R133 and R134 for an operation with exact result `f`: a MOVE to an operand register
stores it, then the result register receives the exact result, or wraps, or the fault is taken (R131). -/
def NarrowedRule (op : ArithOp) (a b r : Role) (f : Int → Int → Int) : Prop :=
  ∀ (s : State) (i : Instr) (v : I64) (d : Nat) (s1 : State), s.Inv → Moves s i v d s1 → Fires s a b d →
    let t := written s s1 d v
    let n := f (t.role a).toInt (t.role b).toInt
    (-2 ^ 63 ≤ n ∧ n ≤ 2 ^ 63 - 1 → exec i s = .next (t.setRole r (wrap64 n)).countTick) ∧
    (¬ (-2 ^ 63 ≤ n ∧ n ≤ 2 ^ 63 - 1) →
      (s.cfg.arithOverflow = .wrap → exec i s = .next (t.setRole r (wrap64 n)).countTick) ∧
      (s.cfg.arithOverflow = .fault →
        exec i s = .next (t.takeFault (.arithOverflow op (t.role a) (t.role b)))))

/-- The value is a valid character (R161). -/
def IsChar (v : I64) : Prop := 0 ≤ v.toInt ∧ scalarValue v.toInt.toNat

/-- The word that image bytes `4j .. 4j+3` make (R68, R77). -/
def imageWord (bytes : List Byte) (j : Nat) : Word :=
  BitVec.ofNat 32 ((bytes.getD (4 * j) 0).toNat * 2 ^ 24 + (bytes.getD (4 * j + 1) 0).toNat * 2 ^ 16 +
    (bytes.getD (4 * j + 2) 0).toNat * 2 ^ 8 + (bytes.getD (4 * j + 3) 0).toNat)

/-- The result registers that a write to an operand role recomputes (R41). -/
def resultsOf : Role → List Role
  | .addA | .addB => [.addR]
  | .subA | .subB => [.subR]
  | .mulA | .mulB => [.mulR]
  | .divN | .divD => [.divQ, .divRem]
  | .ltA | .ltB => [.ltR]
  | .addR | .subR | .mulR | .divQ | .divRem | .ltR | .selCond | .selIfZero | .selIfNonzero | .selR | .conOut
  | .conIn | .secOut | .secNl | .memData | .memAddr | .memCommit | .pc => []

/-- The instruction's source is the register of role `r`. -/
def SourceIs (cfg : Config) (i : Instr) (r : Role) : Prop := ∃ d, i = .movReg (cfg.index r) d

/-- The registers an instruction may change: the counter, the destination, the results that the destination's write
recomputes, and the source if its read overwrites it (R41, R118). -/
def MayChange (cfg : Config) (i : Instr) (j : Nat) : Prop :=
  j = cfg.pcIdx ∨ j = i.dst ∨ (∃ r, cfg.index r = i.dst ∧ ∃ q ∈ resultsOf r, cfg.index q = j) ∨
    (∃ r ∈ readFiring, SourceIs cfg i r ∧ cfg.index r = j)

/-- The state with `ARITH_OVERFLOW = Wrap` in place of what it had. -/
def State.wrapping (s : State) : State := { s with cfg := { s.cfg with arithOverflow := .wrap } }

end Sys2Proof.Machine

open Sys2Proof Sys2Proof.Machine

/-! ### Encoding -/

/-- Every well-formed instruction is the decoding of its word: no operand bit is lost (R91 to R94, R99). -/
def Obligations.DecodeOfEncodeIsTheInstruction : Prop :=
  ∀ i : Instr, i.wellFormed = true → decode (encode i) = i

/-- Every word is the encoding of the instruction it decodes to, which is well-formed (R95, R97). -/
def Obligations.EncodeOfDecodeIsTheWord : Prop :=
  ∀ w : Word, (decode w).wellFormed = true ∧ encode (decode w) = w

/-- R91: `src = w[31:16]`, `dst = w[15:0]`, `I = w[31]`, `S = w[30:16]`, each as a number. -/
def Obligations.WordFieldsByPosition : Prop :=
  ∀ w : Word, (srcField w).toNat = w.toNat / 2 ^ 16 ∧ (dstField w).toNat = w.toNat % 2 ^ 16 ∧
    immediateFlag (srcField w) = decide (w.toNat / 2 ^ 31 = 1) ∧
    (operandField (srcField w)).toNat = w.toNat / 2 ^ 16 % 2 ^ 15 ∧
    (w.toNat / 2 ^ 31 = 1 → decode w = .movImm (w.toNat / 2 ^ 16 % 2 ^ 15) (w.toNat % 2 ^ 16)) ∧
    (w.toNat / 2 ^ 31 = 0 → decode w = .movReg (w.toNat / 2 ^ 16 % 2 ^ 15) (w.toNat % 2 ^ 16))

/-- The encodings of R99, `0x8000_0000 | n << 16 | D` and `S << 16 | D`, as numbers. The notation is the spec's own
(D20). -/
def Obligations.EncodingAsNumbers : Prop :=
  ∀ n d : Nat, n ≤ 32767 → d ≤ 65535 →
    (encode (.movImm n d)).toNat = 0x80000000 + n * 2 ^ 16 + d ∧ (encode (.movReg n d)).toNat = n * 2 ^ 16 + d

/-- R101's two words, and words of 95_test_vectors.md at the ends of the operand ranges. -/
def Obligations.SampleWordsDecode : Prop :=
  srcField 0x00030014 = 0x0003 ∧ dstField 0x00030014 = 0x0014 ∧
    decode 0x00030014 = .movReg 3 20 ∧ decode 0x80030014 = .movImm 3 20 ∧
    decode 0x00000000 = .movReg 0 0 ∧ decode 0xFFFF001B = .movImm 32767 27 ∧
    decode 0x7FFF0010 = .movReg 32767 16 ∧ decode 0x8001FFFF = .movImm 1 65535

/-- R68: four image bytes make the word `b0 * 2^24 + b1 * 2^16 + b2 * 2^8 + b3`, which `decodeBytes` decodes. -/
def Obligations.ImageBytesPackBigEndian : Prop :=
  ∀ (b0 b1 b2 b3 : Byte) (rest : List Byte),
    (packWord b0 b1 b2 b3).toNat = b0.toNat * 2 ^ 24 + b1.toNat * 2 ^ 16 + b2.toNat * 2 ^ 8 + b3.toNat ∧
    decodeBytes (b0 :: b1 :: b2 :: b3 :: rest) = .ok (decode (packWord b0 b1 b2 b3), rest)

/-! ### Initialization and loading -/

/-- R77 (its length policy is the spec's decision D10): the loader writes exactly the whole words of the image that lie
below `CAP`, and changes nothing else. -/
def Obligations.LoaderWritesExactlyTheImage : Prop :=
  ∀ (s : State) (bytes : List Byte) (base : Nat), s.mem.wf s.cfg.memInit s.cfg.cap = true →
    (∃ m, s.loadProgram bytes base = { s with mem := m }) ∧
    ∀ k, (s.loadProgram bytes base).word k =
      if base ≤ k ∧ k < s.cfg.cap ∧ k - base < bytes.length / 4 then imageWord bytes (k - base) else s.word k

/-- R49 and R245, for every parameter value (the default values are the spec's decisions D7, D8, D9): the state before
the first tick. -/
def Obligations.InitializationValues : Prop :=
  ∀ (cfg : Config) (image : List Byte), cfg.conforming = true →
    let s := State.init cfg image
    s.cfg = cfg ∧ s.regs.length = cfg.nreg ∧
    (∀ i, i < cfg.nreg → s.reg i = if i = cfg.pcIdx then cfg.entry else cfg.regInit) ∧
    (∀ k, s.word k = if cfg.loadBase ≤ k ∧ k < cfg.cap ∧ k - cfg.loadBase < image.length / 4 then
      imageWord image (k - cfg.loadBase) else cfg.memInit) ∧
    s.ticks = 0 ∧ s.status = .running ∧ s.trace = []

/-- The invariant holds after every initialization. -/
def Obligations.InitializationMeetsTheInvariant : Prop :=
  ∀ (cfg : Config) (image : List Byte), cfg.conforming = true → (State.init cfg image).Inv

/-- The invariant holds at reset. -/
def Obligations.ResetMeetsTheInvariant : Prop := State.reset.Inv

/-! ### The tick -/

/-- R195: a running machine whose counter addresses memory executes the instruction decoded from the word there. -/
def Obligations.StepRunsTheDecodedWord : Prop :=
  ∀ s : State, s.status = .running → s.cfg.conforming = true → 0 ≤ s.pc.toInt → s.pc.toInt < s.cfg.cap →
    step s = exec (decode (s.word s.pc.toInt.toNat)) s

/-- A well-formed instruction placed at the counter is what the next step runs, and placing it changes no other word
and nothing but memory (the model's way of placing one: log 10). -/
def Obligations.PlacedInstructionRunsNext : Prop :=
  ∀ (s : State) (i : Instr), s.Inv → s.status = .running → s.pcInRange = true → i.wellFormed = true →
    let t := s.withFetchWord 32 (encode i).toNat
    step t = exec i t ∧ (∃ m, t = { s with mem := m }) ∧ ∀ k, k ≠ s.pc.toInt.toNat → t.word k = s.word k

/-- R197 (for a negative counter the spec's decision D6): a counter outside memory halts the machine, which reports
the tick count and the counter; nothing else happens. -/
def Obligations.CounterOutsideMemoryHalts : Prop :=
  ∀ s : State, s.status = .running → s.cfg.conforming = true → (s.pc.toInt < 0 ∨ (s.cfg.cap : Int) ≤ s.pc.toInt) →
    step s = .next { s with status := .halted s.ticks s.pc }

/-- R44: the status is one of three, and no step leaves `Halted` or `Faulted`. -/
def Obligations.NoStepLeavesAnEndedRun : Prop :=
  (∀ x : Status, x = .running ∨ (∃ t p, x = .halted t p) ∨ ∃ c, x = .faulted c) ∧
    ∀ s t : State, s.status ≠ .running → step s ≠ .next t

/-- R35 (the spec's decisions D1, D15), the range of `CAP` (D25) and the widths of R6: the check is these constraints,
and a running machine whose configuration breaks one is refused by name. R35 has a model refuse a map. That a `CAP` out
of range is refused too, that the refusal is `step`'s, and of a running machine alone, is the model's choice (log 12);
that widths other than 32, 64 and 15 are refused is the model's choice (log 2). -/
def Obligations.NonConformingMapIsRefused : Prop :=
  (∀ cfg : Config, cfg.conforming = true ↔
    (∀ r, cfg.index r < cfg.nreg) ∧ (∀ r, r ≠ .pc → cfg.index r ≠ cfg.pcIdx) ∧
    (∀ r q, r ≠ q → cfg.index r = cfg.index q →
      (r, q) ∈ [(Role.memCommit, Role.memData), (.memData, .memCommit), (.conIn, .conOut), (.conOut, .conIn),
        (.secNl, .secOut), (.secOut, .secNl)]) ∧
    (cfg.index .addA = 0 ∧ cfg.index .addB = 1 ∧ cfg.index .addR = 2 ∧ cfg.index .selCond = 20 ∧
      cfg.index .selIfZero = 21 ∧ cfg.index .selIfNonzero = 22 ∧ cfg.index .selR = 23 ∧ cfg.index .pc = 27) ∧
    (1 ≤ cfg.cap ∧ cfg.cap ≤ 2 ^ 63 - 1) ∧ cfg.wordBits = 32 ∧ cfg.regBits = 64 ∧ cfg.immBits = 15) ∧
  ∀ s : State, s.status = .running → s.cfg.conforming = false → step s = .refused .nonConformingConfig

/-- Every step keeps the invariant. -/
def Obligations.EveryStepKeepsTheInvariant : Prop :=
  ∀ s t : State, s.Inv → step s = .next t → t.Inv

/-- Every step of a running machine completes the tick, or halts with a true report, or takes a genuine fault; there
is no other outcome ("Every path either completes the tick, halts or faults", 93_implementation_defined.md). -/
def Obligations.RunningMachineAlwaysSteps : Prop :=
  ∀ s : State, s.Inv → s.status = .running → ∃ t, step s = .next t ∧
    ((s.pcInRange = true ∧ t.status = .running ∧ t.ticks = s.ticks + 1) ∨
     (s.pcInRange = false ∧ t.status = .halted s.ticks s.pc ∧ t.ticks = s.ticks) ∨
     (s.pcInRange = true ∧ (∃ c, t.status = .faulted c ∧ c.genuine t) ∧ t.ticks = s.ticks))

/-- R203: the tick is counted exactly when steps 4 to 6 completed without a fault. -/
def Obligations.OnlyCompletedTicksAreCounted : Prop :=
  ∀ (s t : State) (i : Instr), s.Inv → s.status = .running → exec i s = .next t →
    (t.status = .running ∧ t.ticks = s.ticks + 1) ∨ ((∃ c, t.status = .faulted c) ∧ t.ticks = s.ticks)

/-- R208: when the machine halts after `n` completed ticks of a run that started with none, it reports `n`; the halting
tick is not counted. -/
def Obligations.HaltReportsTheNumberOfMoves : Prop :=
  ∀ (n : Nat) (s t u : State) (m : Nat) (p : I64), s.Inv → s.status = .running → s.ticks = 0 →
    run n s = .next t → t.status = .running → step t = .next u →
    u.status = .halted m p → m = n ∧ p = t.pc

/-- R45 and R113: no step changes the configuration, and so the trigger tables, or the number of registers; and the
I/O trace only grows (R166). -/
def Obligations.StepKeepsConfigurationAndHistory : Prop :=
  ∀ s t : State, step s = .next t →
    t.cfg = s.cfg ∧ t.cfg.triggerTables = s.cfg.triggerTables ∧ t.regs.length = s.regs.length ∧
      s.trace <+: t.trace

/-- R205: `mov PC, PC` jumps to itself; the machine repeats it without end, and only the tick count changes. -/
def Obligations.SelfJumpNeverHalts : Prop :=
  ∀ (s : State) (n : Nat), s.Inv → s.status = .running → s.pcInRange = true →
    s.word s.pc.toInt.toNat = encode (.movReg s.cfg.pcIdx s.cfg.pcIdx) →
    run n s = .next { s with ticks := s.ticks + n }

/-! ### MOVE into and from registers without triggers -/

/-- R199 to a register whose write only stores: the immediate, zero-extended, is stored, the counter advances, the tick
is counted, and nothing else changes. -/
def Obligations.ImmediateMoveStores : Prop :=
  ∀ (s : State) (n d : Nat), s.Inv → (Instr.movImm n d).wellFormed = true → s.cfg.WriteOnlyStores d →
    exec (.movImm n d) s = .next ((s.setPc (s.pc + 1)).setReg d (BitVec.ofNat 64 n)).countTick ∧
      (BitVec.ofNat 64 n).toInt = n

/-- R200 between registers without triggers on that side: the value as it was before the advance is stored, the counter
advances, the tick is counted, and nothing else changes. -/
def Obligations.RegisterMoveStores : Prop :=
  ∀ (s : State) (r d : Nat), s.Inv → s.cfg.ReadOnlyReads r → s.cfg.WriteOnlyStores d →
    exec (.movReg r d) s = .next ((s.setPc (s.pc + 1)).setReg d (s.reg r)).countTick

/-- R204, R201: a MOVE into the counter, of either form, replaces the advance; the next tick fetches at the operand,
or halts if it lies outside memory (for a negative target the spec's decision D6). -/
def Obligations.MoveIntoTheCounterJumps : Prop :=
  ∀ (s : State) (i : Instr) (v : I64) (s1 : State), s.Inv → s.status = .running → Moves s i v s.cfg.pcIdx s1 →
    ∃ t, exec i s = .next t ∧ t = (s1.setPc v).countTick ∧ t.pc = v ∧
      (0 ≤ v.toInt ∧ v.toInt < s.cfg.cap → step t = exec (decode (t.word v.toInt.toNat)) t) ∧
      (¬ (0 ≤ v.toInt ∧ v.toInt < s.cfg.cap) → step t = .next { t with status := .halted t.ticks v })

/-- R96 and R222 (the spec's decision D5), R228: a source index at or above `NREG` faults with nothing changed but the
status; a destination index at or above `NREG` faults after the source read and the advance, with nothing stored and
the tick not counted. -/
def Obligations.UnknownRegisterFaults : Prop :=
  (∀ (s : State) (r d : Nat), s.cfg.nreg ≤ r →
    exec (.movReg r d) s = .next { s with status := .faulted (.badRegister r) }) ∧
  ∀ (s : State) (i : Instr) (v : I64) (d : Nat) (s1 : State), s.Inv → Moves s i v d s1 → s.cfg.nreg ≤ d →
    exec i s = .next { s1.setPc (s.pc + 1) with status := .faulted (.badRegister d) }

/-! ### Arithmetic and comparison -/

/-- R9: narrowing is exact where the integer fits, and otherwise gives the one i64 that is equal to it modulo 2^64. -/
def Obligations.NarrowingIsExactOrModular : Prop :=
  ∀ n : Int, (-2 ^ 63 ≤ n ∧ n ≤ 2 ^ 63 - 1 → (wrap64 n).toInt = n) ∧
    (∀ m : Int, (wrap64 n).toInt = m ↔ (-2 ^ 63 ≤ m ∧ m ≤ 2 ^ 63 - 1) ∧ (m - n) % 2 ^ 64 = 0)

/-- R132, with R130 and R131 (which operand writes fire and what an overflow does are the spec's decisions D2, D3). -/
def Obligations.AddStoresTheSum : Prop := NarrowedRule .add .addA .addB .addR fun a b => a + b

/-- R133, with R130 and R131 (the spec's decisions D2, D3). -/
def Obligations.SubStoresTheDifference : Prop := NarrowedRule .sub .subA .subB .subR fun a b => a - b

/-- R134, with R130 and R131 (the spec's decisions D2, D3). -/
def Obligations.MulStoresTheProduct : Prop := NarrowedRule .mul .mulA .mulB .mulR fun a b => a * b

/-- R135 (the fault of -2^63 / -1 is the spec's decision D4, the firing operands D2): a zero divisor gives the dividend
and 0; -2^63 / -1 faults; any other division gives the quotient and remainder of truncating division, here by the laws
that determine them. -/
def Obligations.DivStoresQuotientAndRemainder : Prop :=
  ∀ (s : State) (i : Instr) (v : I64) (d : Nat) (s1 : State), s.Inv → Moves s i v d s1 → Fires s .divN .divD d →
    let t := written s s1 d v
    let n := t.role .divN
    let m := t.role .divD
    (m.toInt = 0 → exec i s = .next ((t.setRole .divQ n).setRole .divRem 0).countTick) ∧
    (n.toInt = -2 ^ 63 ∧ m.toInt = -1 → exec i s = .next (t.takeFault (.divOverflow n m))) ∧
    (m.toInt ≠ 0 → ¬ (n.toInt = -2 ^ 63 ∧ m.toInt = -1) →
      ∃ q r : I64, exec i s = .next ((t.setRole .divQ q).setRole .divRem r).countTick ∧
        q.toInt * m.toInt + r.toInt = n.toInt ∧ |r.toInt| < |m.toInt| ∧ 0 ≤ r.toInt * n.toInt)

/-- R136 (the firing operands are the spec's decision D2): a MOVE to a firing operand register stores it, then `LT_R`
is 1 if the left operand is less than the right as signed numbers, else 0; it cannot fault. -/
def Obligations.LessThanStoresOneOrZero : Prop :=
  ∀ (s : State) (i : Instr) (v : I64) (d : Nat) (s1 : State), s.Inv → Moves s i v d s1 → Fires s .ltA .ltB d →
    let t := written s s1 d v
    exec i s = .next (t.setRole .ltR (if (t.role .ltA).toInt < (t.role .ltB).toInt then 1 else 0)).countTick

/-- D3: a run under `ARITH_OVERFLOW = Fault` that ends without an overflow fault is step for step the run under
`Wrap`. -/
def Obligations.WrapAgreesWhereNothingOverflows : Prop :=
  ∀ (n : Nat) (s t : State), s.cfg.arithOverflow = .fault → run n s = .next t →
    (∀ op a b, t.status ≠ .faulted (.arithOverflow op a b)) →
    run n s.wrapping = .next t.wrapping

/-- D3, for claims that assume no fault (R228): a machine that no run takes to a fault under `Fault` is one under
`Wrap`. -/
def Obligations.FaultFreeStaysFaultFreeUnderWrap : Prop :=
  ∀ s : State, s.cfg.arithOverflow = .fault → FaultFree s → FaultFree s.wrapping

/-- R250 and RMV §8 (quoted in R248): under either setting of `OPERAND_TRIGGERS`, writing the first addend and then the
second leaves the sum readable, unless the first write faulted on the old second addend (R251). -/
def Obligations.SumIsReadableAfterBothAddends : Prop :=
  ∀ (s t : State) (a b : Nat), s.Inv → s.status = .running → a ≤ 32767 → b ≤ 32767 →
    exec (.movImm a (s.cfg.index .addA)) s = .next t → t.status = .running →
    ∃ u, exec (.movImm b (s.cfg.index .addB)) t = .next u ∧ u.status = .running ∧
      (u.role .addR).toInt = (a : Int) + b

/-! ### Select -/

/-- R150: reading `SEL_R` first stores the selected operand in it, then reads it. -/
def Obligations.SelectIsEvaluatedOnRead : Prop :=
  ∀ s : State, s.Inv →
    let v := if s.role .selCond = 0 then s.role .selIfZero else s.role .selIfNonzero
    ReadsAs s .selR v (s.setRole .selR v)

/-- R122 and R152: a value stored in `SEL_R`, `CON_IN` or `SEC_NL` is never observed: with any other value there, every
instruction does the same, but for what that register holds. -/
def Obligations.StoredPortValuesAreNeverObserved : Prop :=
  ∀ (s t : State) (i : Instr) (r : Role) (v : I64), s.Inv → r ∈ [Role.selR, .conIn, .secNl] →
    exec i s = .next t → ∃ w, exec i (s.setRole r v) = .next (t.setRole r w)

/-! ### Console -/

/-- R162 (which codes are characters is the spec's decision D11): the clear code becomes `Clear`, a valid character is
emitted on the primary port, any other value faults. -/
def Obligations.ConsoleOutputEmits : Prop :=
  ∀ (s : State) (i : Instr) (v : I64) (s1 : State), s.Inv → Moves s i v (s.cfg.index .conOut) s1 →
    let t := written s s1 (s.cfg.index .conOut) v
    (v = s.cfg.clearCode → exec i s = .next (t.emit .clear).countTick) ∧
    (v ≠ s.cfg.clearCode → IsChar v → exec i s = .next (t.emit (.char .primary v.toInt.toNat)).countTick) ∧
    (v ≠ s.cfg.clearCode → ¬ IsChar v → exec i s = .next (t.takeFault (.badChar .primary v)))

/-- R163: reading `CON_IN` polls once, records the poll, stores the byte as a non-negative value or -1, and reads it.
Where the answer comes from is the model's choice (log 8): the next entry of `inputs`, which is used up, or else the
free value `hostAnswer`, whatever it is, which advances `freeDraws`. The spec leaves every answer to the host (D22). -/
def Obligations.ConsoleInputPolls : Prop :=
  ∀ s : State, s.Inv → ∃ (v : I64) (s1 : State), ReadsAs s .conIn v (s1.setRole .conIn v) ∧
    v.toInt = (match s.nextAnswer with | some b => (b.toNat : Int) | none => -1) ∧
    (∀ a rest, s.inputs = a :: rest →
      s.nextAnswer = a ∧ s1 = { s with inputs := rest, trace := s.trace ++ [.poll a] }) ∧
    (s.inputs = [] → s.nextAnswer = Config.hostAnswer s.freeDraws ∧
      s1 = { s with freeDraws := s.freeDraws + 1, trace := s.trace ++ [.poll s.nextAnswer] })

/-- R164 (D11): a valid character is emitted on the secondary port, the code 256 among them; any other value
faults. -/
def Obligations.SecondaryOutputEmits : Prop :=
  ∀ (s : State) (i : Instr) (v : I64) (s1 : State), s.Inv → Moves s i v (s.cfg.index .secOut) s1 →
    let t := written s s1 (s.cfg.index .secOut) v
    (IsChar v → exec i s = .next (t.emit (.char .secondary v.toInt.toNat)).countTick) ∧
    (¬ IsChar v → exec i s = .next (t.takeFault (.badChar .secondary v)))

/-- R165: reading `SEC_NL` yields `NEWLINE_CODE` (its default 10 is the spec's decision D13) and has no I/O effect. -/
def Obligations.SecondaryNewlineYieldsTheCode : Prop :=
  ∀ s : State, s.Inv → ReadsAs s .secNl s.cfg.newlineCode (s.setRole .secNl s.cfg.newlineCode)

/-! ### Memory port -/

/-- R65 and R66: a pair is its two words, the high word first; a store of a pair that exists writes those two words and
nothing else. -/
def Obligations.PairIsHighWordFirst : Prop :=
  ∀ (s : State) (a : Nat) (v : BitVec 64),
    (s.loadDouble a).toNat = (s.word (2 * a)).toNat * 2 ^ 32 + (s.word (2 * a + 1)).toNat ∧
    (s.mem.wf s.cfg.memInit s.cfg.cap = true → 2 * a + 1 < s.cfg.cap →
      ((s.storeDouble a v).word (2 * a)).toNat = v.toNat / 2 ^ 32 ∧
      ((s.storeDouble a v).word (2 * a + 1)).toNat = v.toNat % 2 ^ 32 ∧
      (∀ k, k ≠ 2 * a → k ≠ 2 * a + 1 → (s.storeDouble a v).word k = s.word k) ∧
      ∃ m, s.storeDouble a v = { s with mem := m })

/-- R182 (the exact address test is the spec's decision D16, the unused operand D24): a MOVE to `MEM_COMMIT` stores
`MEM_DATA` at the pair `MEM_ADDR`, or faults with memory unchanged. -/
def Obligations.CommitStoresTheDataRegister : Prop :=
  ∀ (s : State) (i : Instr) (v : I64) (s1 : State), s.Inv → Moves s i v (s.cfg.index .memCommit) s1 →
    let t := written s s1 (s.cfg.index .memCommit) v
    (∀ a : Nat, (t.role .memAddr).toInt = (a : Int) → 2 * (a : Int) + 1 ≤ (s.cfg.cap : Int) - 1 →
      exec i s = .next (t.storeDouble a (t.role .memData)).countTick) ∧
    (¬ (0 ≤ (t.role .memAddr).toInt ∧ 2 * (t.role .memAddr).toInt + 1 ≤ (s.cfg.cap : Int) - 1) →
      exec i s = .next (t.takeFault (.badMemAddress (t.role .memAddr))))

/-- R183 (D16, D17): a MOVE from `MEM_DATA` loads the pair `MEM_ADDR` into it and reads it, or faults with nothing
changed but the status. -/
def Obligations.DataReadLoadsThePair : Prop :=
  ∀ s : State, s.Inv →
    (∀ a : Nat, (s.role .memAddr).toInt = (a : Int) → 2 * (a : Int) + 1 ≤ (s.cfg.cap : Int) - 1 →
      ∃ v : I64, v.toNat = (s.word (2 * a)).toNat * 2 ^ 32 + (s.word (2 * a + 1)).toNat ∧
        ReadsAs s .memData v (s.setRole .memData v)) ∧
    (¬ (0 ≤ (s.role .memAddr).toInt ∧ 2 * (s.role .memAddr).toInt + 1 ≤ (s.cfg.cap : Int) - 1) →
      ∀ d, exec (.movReg (s.cfg.index .memData) d) s = .next (s.takeFault (.badMemAddress (s.role .memAddr))))

/-- R186: a stored value is what a load at the same pair gives, in every later state in which the two words still hold
what the store wrote. -/
def Obligations.StoreThenLoadGivesTheValue : Prop :=
  ∀ (s : State) (i : Instr) (x : I64) (s1 t u : State) (a : Nat), s.Inv → Moves s i x (s.cfg.index .memCommit) s1 →
    ((written s s1 (s.cfg.index .memCommit) x).role .memAddr).toInt = (a : Int) →
    2 * (a : Int) + 1 ≤ (s.cfg.cap : Int) - 1 → exec i s = .next t →
    u.Inv → u.cfg = s.cfg → (u.role .memAddr).toInt = (a : Int) → u.word (2 * a) = t.word (2 * a) →
    u.word (2 * a + 1) = t.word (2 * a + 1) →
    ∀ d, ∃ u1, operandOf (.movReg (s.cfg.index .memData) d) u =
      .done ((written s s1 (s.cfg.index .memCommit) x).role .memData) u1

/-- R82 and R253: a store over the next instruction's word is what the next step fetches and runs. -/
def Obligations.StoreOverTheNextWordIsRun : Prop :=
  ∀ (s : State) (i : Instr) (x : I64) (s1 : State) (a : Nat), s.Inv → s.status = .running → s.pcInRange = true →
    Moves s i x (s.cfg.index .memCommit) s1 →
    let t := written s s1 (s.cfg.index .memCommit) x
    (t.role .memAddr).toInt = (a : Int) → 2 * (a : Int) + 1 ≤ (s.cfg.cap : Int) - 1 →
    ∃ u, exec i s = .next u ∧
      (s.pc.toInt + 1 = 2 * (a : Int) → step u = exec (decode ((t.role .memData).extractLsb' 32 32)) u) ∧
      (s.pc.toInt + 1 = 2 * (a : Int) + 1 → step u = exec (decode ((t.role .memData).extractLsb' 0 32)) u)

/-- R184 (the alias is permitted by the spec's decision D15): where `MEM_COMMIT = MEM_DATA`, a MOVE to it stores the
MOVE's own operand at the pair `MEM_ADDR`. -/
def Obligations.AliasedCommitStoresTheOperand : Prop :=
  ∀ (s : State) (i : Instr) (v : I64) (s1 : State) (a : Nat), s.Inv → s.cfg.index .memCommit = s.cfg.index .memData →
    Moves s i v (s.cfg.index .memData) s1 →
    let t := written s s1 (s.cfg.index .memData) v
    (t.role .memAddr).toInt = (a : Int) → 2 * (a : Int) + 1 ≤ (s.cfg.cap : Int) - 1 →
    exec i s = .next (t.storeDouble a v).countTick

/-! ### Frames -/

/-- Register frame of both forms (R32, R115, R118): every register but the counter, the destination, the results its
write recomputes, and a source that its own read overwrites, is unchanged; a fault taken changes no other either. -/
def Obligations.OtherRegistersAreUnchanged : Prop :=
  ∀ (s t : State) (i : Instr), s.Inv → exec i s = .next t →
    ∀ j, ¬ MayChange s.cfg i j → t.reg j = s.reg j

/-- Memory frame of both forms (R66, R118, R182): only a MOVE to `MEM_COMMIT` whose operand was read changes memory, and
only the two words of the pair that `MEM_ADDR` names when the trigger runs. -/
def Obligations.OtherWordsAreUnchanged : Prop :=
  ∀ (s t : State) (i : Instr), s.Inv → exec i s = .next t →
    (i.dst ≠ s.cfg.index .memCommit → ∀ k, t.word k = s.word k) ∧
    (∀ c s1, operandOf i s = .raised c s1 → ∀ k, t.word k = s.word k) ∧
    (∀ v s1, i.dst = s.cfg.index .memCommit → operandOf i s = .done v s1 →
      (∀ a, pairIndex s.cfg.cap ((written s s1 i.dst v).role .memAddr) = some a →
        ∀ k, k ≠ 2 * a → k ≠ 2 * a + 1 → t.word k = s.word k) ∧
      (pairIndex s.cfg.cap ((written s s1 i.dst v).role .memAddr) = none → ∀ k, t.word k = s.word k))

/-- R166: CORE polls exactly once per read of `CON_IN` and at no other time. That the answer is `nextAnswer`, and what
becomes of `inputs` and `freeDraws`, is about the model's own fields and its choice (log 8); the spec leaves every
answer to the host (D22). -/
def Obligations.PollsHappenOnlyOnConsoleReads : Prop :=
  ∀ (s t : State) (i : Instr), s.Inv → exec i s = .next t →
    (SourceIs s.cfg i .conIn → answersOf t.trace = answersOf s.trace ++ [s.nextAnswer] ∧ t.inputs = s.inputs.tail) ∧
    (¬ SourceIs s.cfg i .conIn →
      answersOf t.trace = answersOf s.trace ∧ t.inputs = s.inputs ∧ t.freeDraws = s.freeDraws)

/-- R168: only a write to `CON_OUT` or `SEC_OUT` emits, and it emits at most one event. -/
def Obligations.OutputHappensOnlyOnPortWrites : Prop :=
  ∀ (s t : State) (i : Instr), s.Inv → exec i s = .next t →
    ∃ es : List Output, outputsOf t.trace = outputsOf s.trace ++ es ∧ es.length ≤ 1 ∧
      (i.dst ≠ s.cfg.index .conOut → i.dst ≠ s.cfg.index .secOut → es = [])

/-- R201 and R228: unless it is the destination, the counter is one past the instruction once the operand was read,
whether the write then faults or not, and at the instruction if the operand's read faulted. -/
def Obligations.CounterAdvancesByOne : Prop :=
  ∀ (s t : State) (i : Instr), s.Inv → exec i s = .next t →
    (∀ v s1, operandOf i s = .done v s1 → i.dst ≠ s.cfg.pcIdx → t.pc = s.pc + 1) ∧
    (∀ c s1, operandOf i s = .raised c s1 → t.pc = s.pc)

/-! ### What no instruction can observe -/

/-- R43 and R235: no instruction reads the tick counter: from any other count it does the same and counts on from
there. -/
def Obligations.TickCounterIsNotObservable : Prop :=
  ∀ (s t : State) (i : Instr) (n : Nat), exec i s = .next t →
    exec i { s with ticks := n } = .next { t with ticks := n + (t.ticks - s.ticks) }

/-- R46: the trace is an observation of CORE and no state it can read: with any other history an instruction does the
same and adds the same events. -/
def Obligations.TraceIsNotObservable : Prop :=
  ∀ (s t : State) (i : Instr) (tr : List Event), exec i s = .next t →
    ∃ es, t.trace = s.trace ++ es ∧ exec i { s with trace := tr } = .next { t with trace := tr ++ es }

/-! ### Trigger tables -/

/-- R123 (it rests on R35, the spec's decision): no register has two triggers in the same phase, and only the three
permitted aliases have one in each. -/
def Obligations.AtMostOneTriggerPerPhase : Prop :=
  ∀ (cfg : Config) (i : Nat), cfg.conforming = true →
    (cfg.readTriggers i).length ≤ 1 ∧ (cfg.writeTriggers i).length ≤ 1 ∧
    (cfg.readTriggers i ≠ [] → cfg.writeTriggers i ≠ [] →
      (i = cfg.index .memCommit ∧ i = cfg.index .memData) ∨ (i = cfg.index .conIn ∧ i = cfg.index .conOut) ∨
        (i = cfg.index .secNl ∧ i = cfg.index .secOut))

/-- R118: a register's list of a phase holds exactly the operations that a catalogue row registers on it in that
phase. -/
def Obligations.TriggerListsFollowTheCatalogue : Prop :=
  ∀ (cfg : Config) (i : Nat) (ph : Phase) (op : Op),
    op ∈ cfg.triggerTables.of ph i ↔
      ∃ row ∈ catalogue cfg.operandTriggers, row.op = op ∧ row.phase = ph ∧ ∃ r ∈ row.on, cfg.index r = i

/-- The table of R119: the trigger lists of the default map under `Both` (the map is the spec's decision D1). -/
def Obligations.DefaultTriggerLists : Prop :=
  (List.range 36).map Config.default.writeTriggers =
    [[.add], [.add], [], [.sub], [.sub], [], [.mul], [.mul], [], [.div], [.div], [], [], [.lt], [.lt], [], [], [], [],
     [], [], [], [], [], [.conOut], [], [.secOut], [], [], [], [], [.memStore], [], [], [], []] ∧
  (List.range 36).map Config.default.readTriggers =
    [[], [], [], [], [], [], [], [], [], [], [], [], [], [], [], [], [], [], [], [], [], [], [], [.sel], [], [.conIn],
     [], [], [.secNl], [.memLoad], [], [], [], [], [], []]

/-! ### Pseudo-instructions (R100, the spec's decision D20) -/

/-- R100 `halt`, both expansions: the next tick halts with the counter given; the large one needs the old `MUL_B`
within the range of R251. -/
def Obligations.HaltExpansionsHalt : Prop :=
  (∀ s : State, s.Inv → s.status = .running → s.cfg.cap ≤ 32767 →
    ∃ t, execAll (Pseudo.halt s.cfg) s = .next t ∧ t.status = .running ∧
      step t = .next t.halt ∧ t.pc.toInt = 32767) ∧
  (∀ s : State, s.Inv → s.status = .running → s.cfg.cap ≤ 2 ^ 20 →
    -2 ^ 53 ≤ (s.role .mulB).toInt → (s.role .mulB).toInt < 2 ^ 53 →
    ∃ t, execAll (Pseudo.haltLarge s.cfg) s = .next t ∧ t.status = .running ∧
      step t = .next t.halt ∧ t.pc.toInt = 1048576)

/-- R100 `bnz` and R206: control goes to `t` if the register is not 0, else to `f`. -/
def Obligations.BranchExpansionSelectsTheTarget : Prop :=
  ∀ (s : State) (c t f : Nat), s.Inv → s.status = .running → s.cfg.ReadOnlyReads c → t ≤ 32767 → f ≤ 32767 →
    ∃ u, execAll (Pseudo.bnz s.cfg c t f) s = .next u ∧ u.status = .running ∧ u.ticks = s.ticks + 4 ∧
      u.pc.toInt = if s.reg c = 0 then (f : Int) else t

/-- R100 `ld` and `st`: the load gives the register the pair's value, the store gives the pair the register's value and
leaves every other word. -/
def Obligations.LoadAndStoreExpansions : Prop :=
  (∀ (s : State) (d a : Nat), s.Inv → s.status = .running → s.cfg.WriteOnlyStores d → a ≤ 32767 →
    2 * a + 1 < s.cfg.cap →
    ∃ t, execAll (Pseudo.ld s.cfg d a) s = .next t ∧ t.status = .running ∧ t.reg d = s.loadDouble a) ∧
  (∀ (s : State) (r a : Nat), s.Inv → s.status = .running → s.cfg.ReadOnlyReads r → a ≤ 32767 →
    2 * a + 1 < s.cfg.cap → s.cfg.index .memCommit ≠ s.cfg.index .memData →
    ∃ t, execAll (Pseudo.st s.cfg r a) s = .next t ∧ t.status = .running ∧ t.loadDouble a = s.reg r ∧
      ∀ k, k ≠ 2 * a → k ≠ 2 * a + 1 → t.word k = s.word k)
end

