-- ==== Sys2Proof/Laws/State.lean ====
section
/-! SUPPORT. What each state update does to each field, and to the registers, the counter and the memory words, once
each; later proofs cite these and unfold no record update. -/

namespace Sys2Proof.Machine

open Sys2Proof

/-! ### setReg -/

@[simp] theorem State.setReg_cfg (s : State) (i : Nat) (v : I64) : (s.setReg i v).cfg = s.cfg := rfl
@[simp] theorem State.setReg_regs (s : State) (i : Nat) (v : I64) : (s.setReg i v).regs = s.regs.set i v := rfl
@[simp] theorem State.setReg_mem (s : State) (i : Nat) (v : I64) : (s.setReg i v).mem = s.mem := rfl
@[simp] theorem State.setReg_ticks (s : State) (i : Nat) (v : I64) : (s.setReg i v).ticks = s.ticks := rfl
@[simp] theorem State.setReg_status (s : State) (i : Nat) (v : I64) : (s.setReg i v).status = s.status := rfl
@[simp] theorem State.setReg_trace (s : State) (i : Nat) (v : I64) : (s.setReg i v).trace = s.trace := rfl
@[simp] theorem State.setReg_inputs (s : State) (i : Nat) (v : I64) : (s.setReg i v).inputs = s.inputs := rfl
@[simp] theorem State.setReg_freeDraws (s : State) (i : Nat) (v : I64) : (s.setReg i v).freeDraws = s.freeDraws := rfl

/-! ### setPc -/

@[simp] theorem State.setPc_cfg (s : State) (v : I64) : (s.setPc v).cfg = s.cfg := rfl
@[simp] theorem State.setPc_regs (s : State) (v : I64) : (s.setPc v).regs = s.regs.set s.cfg.pcIdx v := rfl
@[simp] theorem State.setPc_mem (s : State) (v : I64) : (s.setPc v).mem = s.mem := rfl
@[simp] theorem State.setPc_ticks (s : State) (v : I64) : (s.setPc v).ticks = s.ticks := rfl
@[simp] theorem State.setPc_status (s : State) (v : I64) : (s.setPc v).status = s.status := rfl
@[simp] theorem State.setPc_trace (s : State) (v : I64) : (s.setPc v).trace = s.trace := rfl
@[simp] theorem State.setPc_inputs (s : State) (v : I64) : (s.setPc v).inputs = s.inputs := rfl
@[simp] theorem State.setPc_freeDraws (s : State) (v : I64) : (s.setPc v).freeDraws = s.freeDraws := rfl

/-! ### advance -/

@[simp] theorem State.advance_cfg (s : State) (p : I64) : (s.advance p).cfg = s.cfg := rfl
@[simp] theorem State.advance_regs (s : State) (p : I64) : (s.advance p).regs = s.regs.set s.cfg.pcIdx (p + 1) := rfl
@[simp] theorem State.advance_mem (s : State) (p : I64) : (s.advance p).mem = s.mem := rfl
@[simp] theorem State.advance_ticks (s : State) (p : I64) : (s.advance p).ticks = s.ticks := rfl
@[simp] theorem State.advance_status (s : State) (p : I64) : (s.advance p).status = s.status := rfl
@[simp] theorem State.advance_trace (s : State) (p : I64) : (s.advance p).trace = s.trace := rfl
@[simp] theorem State.advance_inputs (s : State) (p : I64) : (s.advance p).inputs = s.inputs := rfl
@[simp] theorem State.advance_freeDraws (s : State) (p : I64) : (s.advance p).freeDraws = s.freeDraws := rfl

/-! ### setRole -/

@[simp] theorem State.setRole_cfg (s : State) (r : Role) (v : I64) : (s.setRole r v).cfg = s.cfg := rfl
@[simp] theorem State.setRole_regs (s : State) (r : Role) (v : I64) :
    (s.setRole r v).regs = s.regs.set (s.cfg.index r) v := rfl
@[simp] theorem State.setRole_mem (s : State) (r : Role) (v : I64) : (s.setRole r v).mem = s.mem := rfl
@[simp] theorem State.setRole_ticks (s : State) (r : Role) (v : I64) : (s.setRole r v).ticks = s.ticks := rfl
@[simp] theorem State.setRole_status (s : State) (r : Role) (v : I64) : (s.setRole r v).status = s.status := rfl
@[simp] theorem State.setRole_trace (s : State) (r : Role) (v : I64) : (s.setRole r v).trace = s.trace := rfl
@[simp] theorem State.setRole_inputs (s : State) (r : Role) (v : I64) : (s.setRole r v).inputs = s.inputs := rfl
@[simp] theorem State.setRole_freeDraws (s : State) (r : Role) (v : I64) :
    (s.setRole r v).freeDraws = s.freeDraws := rfl

/-! ### setWord -/

@[simp] theorem State.setWord_cfg (s : State) (k : Nat) (w : Word) : (s.setWord k w).cfg = s.cfg := rfl
@[simp] theorem State.setWord_regs (s : State) (k : Nat) (w : Word) : (s.setWord k w).regs = s.regs := rfl
@[simp] theorem State.setWord_mem (s : State) (k : Nat) (w : Word) :
    (s.setWord k w).mem = s.mem.write s.cfg.memInit k w := rfl
@[simp] theorem State.setWord_ticks (s : State) (k : Nat) (w : Word) : (s.setWord k w).ticks = s.ticks := rfl
@[simp] theorem State.setWord_status (s : State) (k : Nat) (w : Word) : (s.setWord k w).status = s.status := rfl
@[simp] theorem State.setWord_trace (s : State) (k : Nat) (w : Word) : (s.setWord k w).trace = s.trace := rfl
@[simp] theorem State.setWord_inputs (s : State) (k : Nat) (w : Word) : (s.setWord k w).inputs = s.inputs := rfl
@[simp] theorem State.setWord_freeDraws (s : State) (k : Nat) (w : Word) :
    (s.setWord k w).freeDraws = s.freeDraws := rfl

/-! ### storeDouble -/

@[simp] theorem State.storeDouble_cfg (s : State) (a : Nat) (v : BitVec 64) : (s.storeDouble a v).cfg = s.cfg := rfl
@[simp] theorem State.storeDouble_regs (s : State) (a : Nat) (v : BitVec 64) :
    (s.storeDouble a v).regs = s.regs := rfl
@[simp] theorem State.storeDouble_ticks (s : State) (a : Nat) (v : BitVec 64) :
    (s.storeDouble a v).ticks = s.ticks := rfl
@[simp] theorem State.storeDouble_status (s : State) (a : Nat) (v : BitVec 64) :
    (s.storeDouble a v).status = s.status := rfl
@[simp] theorem State.storeDouble_trace (s : State) (a : Nat) (v : BitVec 64) :
    (s.storeDouble a v).trace = s.trace := rfl
@[simp] theorem State.storeDouble_inputs (s : State) (a : Nat) (v : BitVec 64) :
    (s.storeDouble a v).inputs = s.inputs := rfl
@[simp] theorem State.storeDouble_freeDraws (s : State) (a : Nat) (v : BitVec 64) :
    (s.storeDouble a v).freeDraws = s.freeDraws := rfl

/-! ### emit -/

@[simp] theorem State.emit_cfg (s : State) (e : Output) : (s.emit e).cfg = s.cfg := rfl
@[simp] theorem State.emit_regs (s : State) (e : Output) : (s.emit e).regs = s.regs := rfl
@[simp] theorem State.emit_mem (s : State) (e : Output) : (s.emit e).mem = s.mem := rfl
@[simp] theorem State.emit_ticks (s : State) (e : Output) : (s.emit e).ticks = s.ticks := rfl
@[simp] theorem State.emit_status (s : State) (e : Output) : (s.emit e).status = s.status := rfl
@[simp] theorem State.emit_trace (s : State) (e : Output) : (s.emit e).trace = s.trace ++ [.emit e] := rfl
@[simp] theorem State.emit_inputs (s : State) (e : Output) : (s.emit e).inputs = s.inputs := rfl
@[simp] theorem State.emit_freeDraws (s : State) (e : Output) : (s.emit e).freeDraws = s.freeDraws := rfl

/-! ### takeFault -/

@[simp] theorem State.takeFault_cfg (s : State) (c : FaultCause) : (s.takeFault c).cfg = s.cfg := rfl
@[simp] theorem State.takeFault_regs (s : State) (c : FaultCause) : (s.takeFault c).regs = s.regs := rfl
@[simp] theorem State.takeFault_mem (s : State) (c : FaultCause) : (s.takeFault c).mem = s.mem := rfl
@[simp] theorem State.takeFault_ticks (s : State) (c : FaultCause) : (s.takeFault c).ticks = s.ticks := rfl
@[simp] theorem State.takeFault_status (s : State) (c : FaultCause) : (s.takeFault c).status = .faulted c := rfl
@[simp] theorem State.takeFault_trace (s : State) (c : FaultCause) : (s.takeFault c).trace = s.trace := rfl
@[simp] theorem State.takeFault_inputs (s : State) (c : FaultCause) : (s.takeFault c).inputs = s.inputs := rfl
@[simp] theorem State.takeFault_freeDraws (s : State) (c : FaultCause) :
    (s.takeFault c).freeDraws = s.freeDraws := rfl

/-! ### halt -/

@[simp] theorem State.halt_cfg (s : State) : (s.halt).cfg = s.cfg := rfl
@[simp] theorem State.halt_regs (s : State) : (s.halt).regs = s.regs := rfl
@[simp] theorem State.halt_mem (s : State) : (s.halt).mem = s.mem := rfl
@[simp] theorem State.halt_ticks (s : State) : (s.halt).ticks = s.ticks := rfl
@[simp] theorem State.halt_status (s : State) : (s.halt).status = .halted s.ticks s.pc := rfl
@[simp] theorem State.halt_trace (s : State) : (s.halt).trace = s.trace := rfl
@[simp] theorem State.halt_inputs (s : State) : (s.halt).inputs = s.inputs := rfl
@[simp] theorem State.halt_freeDraws (s : State) : (s.halt).freeDraws = s.freeDraws := rfl

/-! ### countTick -/

@[simp] theorem State.countTick_cfg (s : State) : (s.countTick).cfg = s.cfg := rfl
@[simp] theorem State.countTick_regs (s : State) : (s.countTick).regs = s.regs := rfl
@[simp] theorem State.countTick_mem (s : State) : (s.countTick).mem = s.mem := rfl
@[simp] theorem State.countTick_ticks (s : State) : (s.countTick).ticks = s.ticks + 1 := rfl
@[simp] theorem State.countTick_status (s : State) : (s.countTick).status = s.status := rfl
@[simp] theorem State.countTick_trace (s : State) : (s.countTick).trace = s.trace := rfl
@[simp] theorem State.countTick_inputs (s : State) : (s.countTick).inputs = s.inputs := rfl
@[simp] theorem State.countTick_freeDraws (s : State) : (s.countTick).freeDraws = s.freeDraws := rfl

/-! ### loadProgram -/

@[simp] theorem State.loadProgram_cfg (s : State) (bytes : List Byte) (base : Nat) :
    (s.loadProgram bytes base).cfg = s.cfg := rfl
@[simp] theorem State.loadProgram_regs (s : State) (bytes : List Byte) (base : Nat) :
    (s.loadProgram bytes base).regs = s.regs := rfl
@[simp] theorem State.loadProgram_mem (s : State) (bytes : List Byte) (base : Nat) :
    (s.loadProgram bytes base).mem = Memory.load s.cfg.memInit s.cfg.cap bytes base s.mem := rfl
@[simp] theorem State.loadProgram_ticks (s : State) (bytes : List Byte) (base : Nat) :
    (s.loadProgram bytes base).ticks = s.ticks := rfl
@[simp] theorem State.loadProgram_status (s : State) (bytes : List Byte) (base : Nat) :
    (s.loadProgram bytes base).status = s.status := rfl
@[simp] theorem State.loadProgram_trace (s : State) (bytes : List Byte) (base : Nat) :
    (s.loadProgram bytes base).trace = s.trace := rfl
@[simp] theorem State.loadProgram_inputs (s : State) (bytes : List Byte) (base : Nat) :
    (s.loadProgram bytes base).inputs = s.inputs := rfl
@[simp] theorem State.loadProgram_freeDraws (s : State) (bytes : List Byte) (base : Nat) :
    (s.loadProgram bytes base).freeDraws = s.freeDraws := rfl

/-! ### drawAnswer and poll -/

@[simp] theorem State.drawAnswer_cfg (s : State) : s.drawAnswer.cfg = s.cfg := by
  unfold State.drawAnswer; split <;> rfl
@[simp] theorem State.drawAnswer_regs (s : State) : s.drawAnswer.regs = s.regs := by
  unfold State.drawAnswer; split <;> rfl
@[simp] theorem State.drawAnswer_mem (s : State) : s.drawAnswer.mem = s.mem := by
  unfold State.drawAnswer; split <;> rfl
@[simp] theorem State.drawAnswer_ticks (s : State) : s.drawAnswer.ticks = s.ticks := by
  unfold State.drawAnswer; split <;> rfl
@[simp] theorem State.drawAnswer_status (s : State) : s.drawAnswer.status = s.status := by
  unfold State.drawAnswer; split <;> rfl
@[simp] theorem State.drawAnswer_trace (s : State) : s.drawAnswer.trace = s.trace := by
  unfold State.drawAnswer; split <;> rfl
@[simp] theorem State.poll_cfg (s : State) : s.poll.cfg = s.cfg := by simp [State.poll]
@[simp] theorem State.poll_regs (s : State) : s.poll.regs = s.regs := by simp [State.poll]
@[simp] theorem State.poll_mem (s : State) : s.poll.mem = s.mem := by simp [State.poll]
@[simp] theorem State.poll_ticks (s : State) : s.poll.ticks = s.ticks := by simp [State.poll]
@[simp] theorem State.poll_status (s : State) : s.poll.status = s.status := by simp [State.poll]
@[simp] theorem State.poll_trace (s : State) : s.poll.trace = s.trace ++ [.poll s.nextAnswer] := rfl
@[simp] theorem State.poll_inputs (s : State) : s.poll.inputs = s.drawAnswer.inputs := rfl
@[simp] theorem State.poll_freeDraws (s : State) : s.poll.freeDraws = s.drawAnswer.freeDraws := rfl

theorem State.drawAnswer_inputs (s : State) : s.drawAnswer.inputs = s.inputs.tail := by
  unfold State.drawAnswer; split <;> simp_all

/-! ### Registers through updates -/

theorem State.reg_of_regs {s t : State} (h : t.regs = s.regs) (i : Nat) : t.reg i = s.reg i := by
  simp [State.reg, h]

theorem State.role_of_eq {s t : State} (hr : t.regs = s.regs) (hc : t.cfg = s.cfg) (r : Role) :
    t.role r = s.role r := by simp [State.role, State.reg, hr, hc]

theorem State.pc_of_eq {s t : State} (hr : t.regs = s.regs) (hc : t.cfg = s.cfg) : t.pc = s.pc := by
  simp [State.pc, State.reg, hr, hc]

theorem State.setReg_reg (s : State) (i j : Nat) (v : I64) :
    (s.setReg i v).reg j = if i = j ∧ i < s.regs.length then v else s.reg j := by
  simp only [State.reg, State.setReg_regs, List.getD_eq_getElem?_getD, List.getElem?_set]
  by_cases hij : i = j
  · subst hij
    by_cases hl : i < s.regs.length <;> simp [hl]
  · simp [hij]

@[simp] theorem State.setReg_reg_ne (s : State) {i j : Nat} (v : I64) (h : i ≠ j) :
    (s.setReg i v).reg j = s.reg j := by simp [State.setReg_reg, h]

theorem State.setReg_reg_self (s : State) {i : Nat} (v : I64) (h : i < s.regs.length) :
    (s.setReg i v).reg i = v := by simp [State.setReg_reg, h]

theorem State.setReg_setReg (s : State) (i : Nat) (v w : I64) :
    (s.setReg i v).setReg i w = s.setReg i w := by simp [State.setReg]

theorem State.setReg_comm (s : State) {i j : Nat} (v w : I64) (h : i ≠ j) :
    (s.setReg i v).setReg j w = (s.setReg j w).setReg i v := by
  simp [State.setReg, List.set_comm _ _ h]

theorem State.setReg_reg_eq (s : State) (i : Nat) : s.setReg i (s.reg i) = s := by
  have h : s.regs.set i (s.reg i) = s.regs := by
    apply List.ext_getElem?
    intro j
    rw [List.getElem?_set]
    by_cases hij : i = j
    · subst hij
      by_cases hl : i < s.regs.length <;> simp [hl, State.reg]
    · simp [hij]
  simp [State.setReg, h]

@[simp] theorem State.countTick_reg (s : State) (i : Nat) : s.countTick.reg i = s.reg i := rfl
@[simp] theorem State.takeFault_reg (s : State) (c : FaultCause) (i : Nat) : (s.takeFault c).reg i = s.reg i := rfl
@[simp] theorem State.halt_reg (s : State) (i : Nat) : s.halt.reg i = s.reg i := rfl
@[simp] theorem State.emit_reg (s : State) (e : Output) (i : Nat) : (s.emit e).reg i = s.reg i := rfl
@[simp] theorem State.setWord_reg (s : State) (k : Nat) (w : Word) (i : Nat) : (s.setWord k w).reg i = s.reg i := rfl
@[simp] theorem State.storeDouble_reg (s : State) (a : Nat) (v : BitVec 64) (i : Nat) :
    (s.storeDouble a v).reg i = s.reg i := rfl
@[simp] theorem State.poll_reg (s : State) (i : Nat) : s.poll.reg i = s.reg i := by simp [State.reg]
@[simp] theorem State.countTick_pc (s : State) : s.countTick.pc = s.pc := rfl
@[simp] theorem State.takeFault_pc (s : State) (c : FaultCause) : (s.takeFault c).pc = s.pc := rfl
@[simp] theorem State.halt_pc (s : State) : s.halt.pc = s.pc := rfl
@[simp] theorem State.countTick_role (s : State) (r : Role) : s.countTick.role r = s.role r := rfl
@[simp] theorem State.takeFault_role (s : State) (c : FaultCause) (r : Role) : (s.takeFault c).role r = s.role r := rfl

/-! ### Memory words through updates -/

@[simp] theorem State.setReg_word (s : State) (i : Nat) (v : I64) (k : Nat) : (s.setReg i v).word k = s.word k := rfl
@[simp] theorem State.setRole_word (s : State) (r : Role) (v : I64) (k : Nat) : (s.setRole r v).word k = s.word k := rfl
@[simp] theorem State.advance_word (s : State) (p : I64) (k : Nat) : (s.advance p).word k = s.word k := rfl
@[simp] theorem State.countTick_word (s : State) (k : Nat) : s.countTick.word k = s.word k := rfl
@[simp] theorem State.takeFault_word (s : State) (c : FaultCause) (k : Nat) : (s.takeFault c).word k = s.word k := rfl
@[simp] theorem State.halt_word (s : State) (k : Nat) : s.halt.word k = s.word k := rfl
@[simp] theorem State.emit_word (s : State) (e : Output) (k : Nat) : (s.emit e).word k = s.word k := rfl
@[simp] theorem State.poll_word (s : State) (k : Nat) : s.poll.word k = s.word k := by simp [State.word]

theorem State.word_of_eq {s t : State} (hm : t.mem = s.mem) (hc : t.cfg = s.cfg) (k : Nat) :
    t.word k = s.word k := by simp [State.word, hm, hc]

end Sys2Proof.Machine
end

