-- ==== Sys2Proof/Laws/Memory.lean ====
section
/-! SUPPORT. The laws of memory as data: a read after a write, the frame of a write, and that every memory operation
keeps the canonical form. -/

namespace Sys2Proof.Machine

open Sys2Proof

/-- A write leaves every other word alone, in any list. -/
theorem Memory.read_write_ne (d : Word) (m : Memory) {k j : Nat} (v : Word) (h : k ≠ j) :
    (m.write d k v).read d j = m.read d j := by
  induction m with
  | nil => by_cases hv : v = d <;> simp [Memory.write, Memory.read, hv, h]
  | cons c m ih =>
    obtain ⟨a, w⟩ := c
    by_cases hlt : k < a
    · by_cases hv : v = d <;> simp [Memory.write, Memory.read, hlt, hv, h]
    · by_cases hka : k = a
      · subst hka
        by_cases hv : v = d <;> simp [Memory.write, Memory.read, hv, h]
      · simp only [Memory.write, hlt, hka, if_false, Memory.read, ih]

/-- Below the least index that a canonical memory may list, every word holds `d`. -/
theorem Memory.read_below (d : Word) (cap : Nat) {m : Memory} {lo k : Nat} (h : Memory.wfFrom d cap lo m = true)
    (hk : k < lo) : m.read d k = d := by
  induction m generalizing lo with
  | nil => rfl
  | cons c m ih =>
    obtain ⟨a, w⟩ := c
    simp only [Memory.wfFrom, Bool.and_eq_true, decide_eq_true_eq] at h
    obtain ⟨⟨⟨hla, -⟩, -⟩, hm⟩ := h
    have hne : a ≠ k := by omega
    simp only [Memory.read, hne, if_false]
    exact ih hm (by omega)

theorem Memory.wfFrom_mono (d : Word) (cap : Nat) {m : Memory} {lo lo' : Nat} (h : Memory.wfFrom d cap lo m = true)
    (hl : lo' ≤ lo) : Memory.wfFrom d cap lo' m = true := by
  cases m with
  | nil => rfl
  | cons c m =>
    simp only [Memory.wfFrom, Bool.and_eq_true, decide_eq_true_eq] at h ⊢
    exact ⟨⟨⟨by omega, h.1.1.2⟩, h.1.2⟩, h.2⟩

/-- A read gives what the last write to that word wrote. -/
theorem Memory.read_write_self (d : Word) (cap : Nat) {m : Memory} {lo : Nat}
    (h : Memory.wfFrom d cap lo m = true) (k : Nat) (v : Word) : (m.write d k v).read d k = v := by
  induction m generalizing lo with
  | nil => by_cases hv : v = d <;> simp [Memory.write, Memory.read, hv]
  | cons c m ih =>
    obtain ⟨a, w⟩ := c
    simp only [Memory.wfFrom, Bool.and_eq_true, decide_eq_true_eq] at h
    obtain ⟨-, hm⟩ := h
    by_cases hlt : k < a
    · by_cases hv : v = d
      · have hne : a ≠ k := by omega
        simp only [Memory.write, hlt, hv, if_true, Memory.read, hne, if_false]
        exact Memory.read_below d cap hm (by omega)
      · simp [Memory.write, Memory.read, hlt, hv]
    · by_cases hka : k = a
      · subst hka
        by_cases hv : v = d
        · simp only [Memory.write, Nat.lt_irrefl, if_false, if_true, hv]
          exact Memory.read_below d cap hm (by omega)
        · simp [Memory.write, Memory.read, hv]
      · have hne : a ≠ k := fun e => hka e.symm
        simp only [Memory.write, hlt, hka, if_false, Memory.read, hne]
        exact ih hm

theorem Memory.wfFrom_write (d : Word) (cap : Nat) {m : Memory} {lo : Nat} (h : Memory.wfFrom d cap lo m = true)
    {k : Nat} (hk : k < cap) (hlo : lo ≤ k) (v : Word) : Memory.wfFrom d cap lo (m.write d k v) = true := by
  induction m generalizing lo with
  | nil => by_cases hv : v = d <;> simp [Memory.write, Memory.wfFrom, hv, hk, hlo]
  | cons c m ih =>
    obtain ⟨a, w⟩ := c
    have h0 := h
    simp only [Memory.wfFrom, Bool.and_eq_true, decide_eq_true_eq] at h
    obtain ⟨⟨⟨hla, hac⟩, hw⟩, hm⟩ := h
    by_cases hlt : k < a
    · by_cases hv : v = d
      · simpa only [Memory.write, hlt, hv, if_true] using h0
      · simp only [Memory.write, hlt, hv, if_true, if_false, Memory.wfFrom, Bool.and_eq_true, decide_eq_true_eq]
        exact ⟨⟨⟨hlo, hk⟩, hv⟩, ⟨⟨by omega, hac⟩, hw⟩, hm⟩
    · by_cases hka : k = a
      · subst hka
        by_cases hv : v = d
        · simp only [Memory.write, Nat.lt_irrefl, if_false, if_true, hv]
          exact Memory.wfFrom_mono d cap hm (by omega)
        · simp only [Memory.write, Nat.lt_irrefl, if_false, if_true, hv, Memory.wfFrom, Bool.and_eq_true,
            decide_eq_true_eq]
          exact ⟨⟨⟨hla, hac⟩, hv⟩, hm⟩
      · simp only [Memory.write, hlt, hka, if_false, Memory.wfFrom, Bool.and_eq_true, decide_eq_true_eq]
        exact ⟨⟨⟨hla, hac⟩, hw⟩, ih hm (by omega)⟩

/-- A write to an existing word keeps the canonical form. -/
theorem Memory.wf_write (d : Word) (cap : Nat) {m : Memory} (h : m.wf d cap = true) {k : Nat} (hk : k < cap)
    (v : Word) : (m.write d k v).wf d cap = true :=
  Memory.wfFrom_write d cap h hk (Nat.zero_le k) v

/-- The loader keeps the canonical form. -/
theorem Memory.wf_load (d : Word) (cap : Nat) (bytes : List Byte) (k : Nat) {m : Memory}
    (h : m.wf d cap = true) : (Memory.load d cap bytes k m).wf d cap = true := by
  fun_induction Memory.load d cap bytes k m with
  | case1 k m b0 b1 b2 b3 rest hk ih => exact ih (Memory.wf_write d cap h hk _)
  | case2 => exact h
  | case3 => exact h

/-- In a canonical memory every listed word is a word of `0 .. CAP-1`. -/
theorem Memory.index_lt_of_mem (d : Word) (cap : Nat) {m : Memory} {lo : Nat} (h : Memory.wfFrom d cap lo m = true)
    {c : Cell} (hc : c ∈ m) : c.1 < cap := by
  induction m generalizing lo with
  | nil => simp at hc
  | cons x m ih =>
    simp only [Memory.wfFrom, Bool.and_eq_true, decide_eq_true_eq] at h
    rcases List.mem_cons.1 hc with rfl | hc
    · exact h.1.1.2
    · exact ih h.2 hc

/-- Equal contents are equal data: two canonical memories that read alike everywhere are the same list. -/
theorem Memory.ext_of_wf (d : Word) (cap : Nat) {m m' : Memory} {lo : Nat} (h : Memory.wfFrom d cap lo m = true)
    (h' : Memory.wfFrom d cap lo m' = true) (heq : ∀ k, m.read d k = m'.read d k) : m = m' := by
  induction m generalizing m' lo with
  | nil =>
    cases m' with
    | nil => rfl
    | cons c m' =>
      simp only [Memory.wfFrom, Bool.and_eq_true, decide_eq_true_eq] at h'
      have := heq c.1
      simp only [Memory.read, if_true] at this
      exact absurd this.symm h'.1.2
  | cons c m ih =>
    obtain ⟨a, w⟩ := c
    have h0 := h
    simp only [Memory.wfFrom, Bool.and_eq_true, decide_eq_true_eq] at h
    obtain ⟨⟨⟨hla, -⟩, hw⟩, hm⟩ := h
    cases m' with
    | nil =>
      have := heq a
      simp only [Memory.read, if_true] at this
      exact absurd this hw
    | cons c' m' =>
      obtain ⟨a', w'⟩ := c'
      have h0' := h'
      simp only [Memory.wfFrom, Bool.and_eq_true, decide_eq_true_eq] at h'
      obtain ⟨⟨⟨hla', -⟩, hw'⟩, hm'⟩ := h'
      have haa : a = a' := by
        rcases Nat.lt_trichotomy a a' with hlt | he | hgt
        · have hr := heq a
          have hb : Memory.read d m' a = d := Memory.read_below d cap hm' (by omega)
          have hne : a' ≠ a := by omega
          simp only [Memory.read, if_true, hne, if_false, hb] at hr
          exact absurd hr hw
        · exact he
        · have hr := heq a'
          have hb : Memory.read d m a' = d := Memory.read_below d cap hm (by omega)
          have hne : a ≠ a' := by omega
          simp only [Memory.read, if_true, hne, if_false, hb] at hr
          exact absurd hr.symm hw'
      subst haa
      have hww : w = w' := by simpa [Memory.read] using heq a
      subst hww
      have : m = m' := by
        apply ih hm hm'
        intro k
        by_cases hk : a = k
        · subst hk
          rw [Memory.read_below d cap hm (by omega), Memory.read_below d cap hm' (by omega)]
        · simpa [Memory.read, hk] using heq k
      rw [this]

/-! ### Words of the state -/

theorem State.setWord_word_ne (s : State) {k j : Nat} (v : Word) (h : k ≠ j) : (s.setWord k v).word j = s.word j :=
  Memory.read_write_ne _ _ v h

theorem State.setWord_word_self {s : State} (h : s.mem.wf s.cfg.memInit s.cfg.cap = true) (k : Nat) (v : Word) :
    (s.setWord k v).word k = v := Memory.read_write_self _ _ h k v

/-- A pair is stored outside no word but its own two (R66). -/
theorem State.storeDouble_word_ne (s : State) {a k : Nat} (v : BitVec 64) (h0 : k ≠ 2 * a) (h1 : k ≠ 2 * a + 1) :
    (s.storeDouble a v).word k = s.word k := by
  rw [State.storeDouble, State.setWord_word_ne _ _ (Ne.symm h1), State.setWord_word_ne _ _ (Ne.symm h0)]

/-- The high word of a stored pair (R66). -/
theorem State.storeDouble_word_high {s : State} (h : s.mem.wf s.cfg.memInit s.cfg.cap = true) (a : Nat)
    (v : BitVec 64) : (s.storeDouble a v).word (2 * a) = v.extractLsb' 32 32 := by
  rw [State.storeDouble, State.setWord_word_ne _ _ (by omega), State.setWord_word_self h]

/-- The low word of a stored pair (R66). -/
theorem State.storeDouble_word_low {s : State} (h : s.mem.wf s.cfg.memInit s.cfg.cap = true) {a : Nat}
    (ha : 2 * a < s.cfg.cap) (v : BitVec 64) : (s.storeDouble a v).word (2 * a + 1) = v.extractLsb' 0 32 := by
  rw [State.storeDouble, State.setWord_word_self]
  exact Memory.wf_write _ _ h ha _

/-- A store to an existing pair keeps the canonical form. -/
theorem State.storeDouble_wf {s : State} (h : s.mem.wf s.cfg.memInit s.cfg.cap = true) {a : Nat}
    (ha : 2 * a + 1 < s.cfg.cap) (v : BitVec 64) :
    (s.storeDouble a v).mem.wf s.cfg.memInit s.cfg.cap = true :=
  Memory.wf_write _ _ (Memory.wf_write _ _ h (by omega) _) ha _

/-- The bits of a pair, put together again. -/
theorem pair_bits (v : BitVec 64) : ((v.extractLsb' 32 32 ++ v.extractLsb' 0 32 : BitVec (32 + 32)).cast rfl) = v := by
  ext i hi
  simp only [BitVec.getElem_cast, BitVec.getElem_append, BitVec.getElem_extractLsb']
  split
  · simp [BitVec.getLsbD_eq_getElem hi]
  · rw [← BitVec.getLsbD_eq_getElem hi]
    congr 1
    omega

/-- What a pair index that passes the check of R67 is. -/
theorem pairIndex_eq_some {cap : Nat} {a : I64} {k : Nat} (h : pairIndex cap a = some k) :
    a.toInt = (k : Int) ∧ 2 * k + 1 < cap := by
  unfold pairIndex at h
  split at h
  · rename_i hc
    simp only [Option.some.injEq] at h
    omega
  · simp at h

/-- A pair index that R67 calls valid passes the check. -/
theorem pairIndex_of_valid {cap : Nat} {a : I64} {k : Nat} (ha : a.toInt = (k : Int)) (hk : 2 * k + 1 < cap) :
    pairIndex cap a = some k := by
  unfold pairIndex
  rw [if_pos (by omega)]
  simp [ha]

/-- A pair index fails the check exactly when R67 calls it invalid. -/
theorem pairIndex_eq_none {cap : Nat} {a : I64} :
    pairIndex cap a = none ↔ ¬ (0 ≤ a.toInt ∧ 2 * a.toInt + 1 ≤ (cap : Int) - 1) := by
  unfold pairIndex
  split <;> simp_all

end Sys2Proof.Machine
end

