-- ==== Sys2Proof/Laws/Wiring.lean ====
section
/-! SUPPORT. What a conforming configuration (R35) gives: role indices in range and apart, and the trigger list of
every register. -/

namespace Sys2Proof

open Sys2Proof.Machine

/-! ### The clauses of R35 -/

theorem Role.mem_all (r : Role) : r ∈ Role.all := by cases r <;> decide

theorem Role.mem_ported {r : Role} (h : r ≠ .pc) : r ∈ Role.ported := by
  cases r <;> first | decide | exact absurd rfl h

namespace Config

variable {cfg : Config}

/-- What a conforming configuration meets, clause by clause. -/
theorem conforming_iff : cfg.conforming = true ↔ cfg.rolesInRange = true ∧ cfg.pcApart = true ∧
    cfg.rolesDistinct = true ∧ cfg.fixedIndices = true ∧ cfg.capInRange = true ∧ cfg.widthsAsRuled = true := by
  simp only [conforming, Bool.and_eq_true, and_assoc]

theorem index_lt (h : cfg.conforming = true) (r : Role) : cfg.index r < cfg.nreg := by
  obtain ⟨this, -⟩ := conforming_iff.1 h
  simp only [rolesInRange, List.all_eq_true, decide_eq_true_eq] at this
  exact this r (Role.mem_all r)

theorem index_ne_pc (h : cfg.conforming = true) {r : Role} (hr : r ≠ .pc) : cfg.index r ≠ cfg.pcIdx := by
  obtain ⟨-, this, -⟩ := conforming_iff.1 h
  simp only [pcApart, List.all_eq_true, decide_eq_true_eq] at this
  exact this r (Role.mem_ported hr)

/-- Two roles that may not share an index do not. -/
theorem index_ne (h : cfg.conforming = true) {r q : Role} (hne : r ≠ q) (hs : r.mayShare q = false) :
    cfg.index r ≠ cfg.index q := by
  by_cases hr : r = .pc
  · subst hr
    exact Ne.symm (index_ne_pc h (Ne.symm hne))
  by_cases hq : q = .pc
  · subst hq
    exact index_ne_pc h hne
  obtain ⟨-, -, this, -⟩ := conforming_iff.1 h
  simp only [rolesDistinct, List.all_eq_true, Bool.or_eq_true, decide_eq_true_eq] at this
  rcases this r (Role.mem_ported hr) q (Role.mem_ported hq) with (h1 | h1) | h1
  · exact absurd h1 hne
  · simp [hs] at h1
  · exact h1

theorem cap_bounds (h : cfg.conforming = true) : 1 ≤ cfg.cap ∧ cfg.cap ≤ 2 ^ 63 - 1 := by
  obtain ⟨-, -, -, -, hc, -⟩ := conforming_iff.1 h
  simpa only [capInRange, Bool.and_eq_true, decide_eq_true_eq] using hc

/-- The widths of a conforming configuration are those of the types (R6). -/
theorem widths (h : cfg.conforming = true) : cfg.wordBits = 32 ∧ cfg.regBits = 64 ∧ cfg.immBits = 15 := by
  obtain ⟨-, -, -, -, -, hw⟩ := conforming_iff.1 h
  simpa only [widthsAsRuled, Bool.and_eq_true, decide_eq_true_eq, and_assoc] using hw

@[simp] theorem index_pc : cfg.index .pc = cfg.pcIdx := rfl

theorem pcIdx_lt (h : cfg.conforming = true) : cfg.pcIdx < cfg.nreg := index_lt h .pc

/-- The fixed indices of R33. -/
theorem fixed (h : cfg.conforming = true) :
    cfg.map.addA = 0 ∧ cfg.map.addB = 1 ∧ cfg.map.addR = 2 ∧ cfg.map.selCond = 20 ∧ cfg.map.selIfZero = 21 ∧
      cfg.map.selIfNonzero = 22 ∧ cfg.map.selR = 23 ∧ cfg.pcIdx = 27 := by
  obtain ⟨-, -, -, hf, -⟩ := conforming_iff.1 h
  simpa only [fixedIndices, Bool.and_eq_true, decide_eq_true_eq, and_assoc] using hf

/-! ### Trigger lists -/

/-- The write-triggers by role, in registration order (R118). -/
def writers : OperandTriggers → List (Role × Op)
  | .both => [(.addA, .add), (.addB, .add), (.subA, .sub), (.subB, .sub), (.mulA, .mul), (.mulB, .mul),
      (.divN, .div), (.divD, .div), (.ltA, .lt), (.ltB, .lt), (.conOut, .conOut), (.secOut, .secOut),
      (.memCommit, .memStore)]
  | .secondOnly => [(.addB, .add), (.subB, .sub), (.mulB, .mul), (.divD, .div), (.ltB, .lt), (.conOut, .conOut),
      (.secOut, .secOut), (.memCommit, .memStore)]

/-- The read-triggers by role, in registration order (R118). -/
def readers : List (Role × Op) := [(.selR, .sel), (.conIn, .conIn), (.secNl, .secNl), (.memData, .memLoad)]

theorem writers_roles (t : OperandTriggers) : (writers t).map (·.1) = writeFiring t := by cases t <;> rfl

theorem readers_roles : readers.map (·.1) = readFiring := rfl

/-- All registrations by role, in registration order (R118). -/
def registrations (t : OperandTriggers) : List (Role × Phase × Op) :=
  (catalogue t).flatMap fun row => row.on.map fun r => (r, row.phase, row.op)

theorem triggerTables_eq (cfg : Config) : cfg.triggerTables =
    (registrations cfg.operandTriggers).map fun e => ⟨cfg.index e.1, e.2.1, e.2.2⟩ := by
  unfold triggerTables
  cases cfg.operandTriggers <;> rfl

theorem triggers_eq (cfg : Config) (ph : Phase) (i : Nat) : cfg.triggerTables.of ph i =
    ((((registrations cfg.operandTriggers).filter fun e => decide (e.2.1 = ph)).map
      fun e => (e.1, e.2.2)).filter fun p => decide (cfg.index p.1 = i)).map (·.2) := by
  rw [triggerTables_eq, TriggerTables.of, List.filter_map, List.filter_map, List.filter_filter, List.map_map,
    List.map_map]
  congr 1
  apply List.filter_congr
  intro e _
  simp [Bool.and_comm]

theorem writeTriggers_eq (cfg : Config) (i : Nat) : cfg.writeTriggers i =
    ((writers cfg.operandTriggers).filter fun p => decide (cfg.index p.1 = i)).map (·.2) := by
  rw [writeTriggers, triggers_eq]
  cases cfg.operandTriggers <;> rfl

theorem readTriggers_eq (cfg : Config) (i : Nat) : cfg.readTriggers i =
    (readers.filter fun p => decide (cfg.index p.1 = i)).map (·.2) := by
  rw [readTriggers, triggers_eq]
  cases cfg.operandTriggers <;> rfl

/-- A list whose keys are pairwise different has at most one entry at a key. -/
theorem filter_key {l : List (Role × Op)} {f : Role → Nat}
    (hl : l.Pairwise fun a b => f a.1 ≠ f b.1) {e : Role × Op} (he : e ∈ l) :
    (l.filter fun p => decide (f p.1 = f e.1)).map (·.2) = [e.2] := by
  induction l with
  | nil => simp at he
  | cons a l ih =>
    rw [List.pairwise_cons] at hl
    rcases List.mem_cons.1 he with rfl | he
    · have : l.filter (fun p => decide (f p.1 = f e.1)) = [] := by
        rw [List.filter_eq_nil_iff]
        intro p hp
        simpa using Ne.symm (hl.1 p hp)
      simp [this]
    · have hne : f a.1 ≠ f e.1 := hl.1 e he
      simp [hne, ih hl.2 he]

theorem writers_apart (h : cfg.conforming = true) (t : OperandTriggers) :
    (writers t).Pairwise fun a b => cfg.index a.1 ≠ cfg.index b.1 := by
  have : (writers t).Pairwise fun a b => a.1 ≠ b.1 ∧ a.1.mayShare b.1 = false := by cases t <;> decide
  exact this.imp fun hab => index_ne h hab.1 hab.2

theorem readers_apart (h : cfg.conforming = true) :
    readers.Pairwise fun a b => cfg.index a.1 ≠ cfg.index b.1 := by
  have : readers.Pairwise fun a b => a.1 ≠ b.1 ∧ a.1.mayShare b.1 = false := by decide
  exact this.imp fun hab => index_ne h hab.1 hab.2

/-- The register of a write-triggered role has that role's one trigger. -/
theorem writeTriggers_of_mem (h : cfg.conforming = true) {e : Role × Op} (he : e ∈ writers cfg.operandTriggers) :
    cfg.writeTriggers (cfg.index e.1) = [e.2] := by
  rw [writeTriggers_eq, filter_key (writers_apart h _) he]

/-- The register of a read-triggered role has that role's one trigger. -/
theorem readTriggers_of_mem (h : cfg.conforming = true) {e : Role × Op} (he : e ∈ readers) :
    cfg.readTriggers (cfg.index e.1) = [e.2] := by
  rw [readTriggers_eq, filter_key (readers_apart h) he]

/-- A register that is no write-triggered role's has no write-trigger. -/
theorem writeTriggers_eq_nil {d : Nat} (h : ∀ r ∈ writeFiring cfg.operandTriggers, cfg.index r ≠ d) :
    cfg.writeTriggers d = [] := by
  rw [writeTriggers_eq, List.map_eq_nil_iff, List.filter_eq_nil_iff]
  intro p hp
  simpa using h p.1 (by rw [← writers_roles]; exact List.mem_map_of_mem hp)

/-- A register that is no read-triggered role's has no read-trigger. -/
theorem readTriggers_eq_nil {i : Nat} (h : ∀ r ∈ readFiring, cfg.index r ≠ i) : cfg.readTriggers i = [] := by
  rw [readTriggers_eq, List.map_eq_nil_iff, List.filter_eq_nil_iff]
  intro p hp
  simpa using h p.1 (by rw [← readers_roles]; exact List.mem_map_of_mem hp)

/-- Every index is no register, a register whose write only stores, or a write-triggered role's register. -/
theorem write_cases (cfg : Config) (d : Nat) :
    cfg.nreg ≤ d ∨ cfg.WriteOnlyStores d ∨ ∃ e ∈ writers cfg.operandTriggers, d = cfg.index e.1 := by
  by_cases hd : cfg.nreg ≤ d
  · exact .inl hd
  by_cases hw : ∃ e ∈ writers cfg.operandTriggers, d = cfg.index e.1
  · exact .inr (.inr hw)
  refine .inr (.inl ⟨by omega, fun r hr he => hw ?_⟩)
  rw [← writers_roles, List.mem_map] at hr
  obtain ⟨e, hm, rfl⟩ := hr
  exact ⟨e, hm, he.symm⟩

/-- Every index is no register, a register whose read only reads, or a read-triggered role's register. -/
theorem read_cases (cfg : Config) (i : Nat) :
    cfg.nreg ≤ i ∨ cfg.ReadOnlyReads i ∨ ∃ e ∈ readers, i = cfg.index e.1 := by
  by_cases hd : cfg.nreg ≤ i
  · exact .inl hd
  by_cases hw : ∃ e ∈ readers, i = cfg.index e.1
  · exact .inr (.inr hw)
  refine .inr (.inl ⟨by omega, fun r hr he => hw ?_⟩)
  rw [← readers_roles, List.mem_map] at hr
  obtain ⟨e, hm, rfl⟩ := hr
  exact ⟨e, hm, he.symm⟩

/-- No trigger is registered on the program counter, so writing it only stores (R38). -/
theorem pc_writeOnlyStores (h : cfg.conforming = true) : cfg.WriteOnlyStores cfg.pcIdx := by
  refine ⟨pcIdx_lt h, fun r hr => index_ne_pc h ?_⟩
  rintro rfl
  cases hc : cfg.operandTriggers <;> simp [hc, writeFiring] at hr

/-- No trigger is registered on the program counter, so reading it only reads (R38). -/
theorem pc_readOnlyReads (h : cfg.conforming = true) : cfg.ReadOnlyReads cfg.pcIdx := by
  refine ⟨pcIdx_lt h, fun r hr => index_ne_pc h ?_⟩
  rintro rfl
  simp [readFiring] at hr

end Config

end Sys2Proof
end

