-- ==== Sys2Proof/Laws/Operands.lean ====
section
/-! SUPPORT. What a trigger, a `Get` and a `Set` can do, said once each; later proofs cite these and do not unfold the
trigger lists. -/

namespace Sys2Proof.Machine

open Sys2Proof

/-! ### The invariant under updates -/

/-- What every trigger leaves as it was or only extends: the configuration, the size of the buffer, the counter, the
tick count and the status; memory stays canonical, and the trace grows by valid events. -/
structure Keeps (s t : State) : Prop where
  cfg : t.cfg = s.cfg
  buffer : t.regs.length = s.regs.length
  ticks : t.ticks = s.ticks
  status : t.status = s.status
  pc : t.pc = s.pc
  memory : s.mem.wf s.cfg.memInit s.cfg.cap = true → t.mem.wf s.cfg.memInit s.cfg.cap = true
  trace : ∃ es : List Event, t.trace = s.trace ++ es ∧ ∀ e ∈ es, e.valid s.cfg

theorem Keeps.refl (s : State) : Keeps s s :=
  ⟨rfl, rfl, rfl, rfl, rfl, id, [], by simp, by simp⟩

theorem Keeps.trans {s t u : State} (h : Keeps s t) (h' : Keeps t u) : Keeps s u := by
  obtain ⟨es, he, hv⟩ := h.trace
  obtain ⟨es', he', hv'⟩ := h'.trace
  refine ⟨h'.cfg.trans h.cfg, h'.buffer.trans h.buffer, h'.ticks.trans h.ticks, h'.status.trans h.status,
    h'.pc.trans h.pc, fun hm => ?_, es ++ es', by rw [he', he, List.append_assoc], ?_⟩
  · have := h'.memory
    rw [h.cfg] at this
    exact this (h.memory hm)
  · intro e hm
    rcases List.mem_append.1 hm with hm | hm
    · exact hv e hm
    · have := hv' e hm
      rwa [h.cfg] at this

/-- A plain write of a register other than the counter. -/
theorem Keeps.setReg (s : State) {i : Nat} (v : I64) (h : i ≠ s.cfg.pcIdx) : Keeps s (s.setReg i v) where
  cfg := rfl
  buffer := by simp
  ticks := rfl
  status := rfl
  pc := by simp [State.pc, h]
  memory := id
  trace := ⟨[], by simp, by simp⟩

theorem Keeps.setRole {s : State} (hc : s.cfg.conforming = true) {r : Role} (hr : r ≠ .pc) (v : I64) :
    Keeps s (s.setRole r v) := Keeps.setReg s v (Config.index_ne_pc hc hr)

theorem Keeps.emit (s : State) {e : Output} (he : (Event.emit e).valid s.cfg) : Keeps s (s.emit e) where
  cfg := rfl
  buffer := rfl
  ticks := rfl
  status := rfl
  pc := rfl
  memory := id
  trace := ⟨[.emit e], rfl, by simpa using he⟩

theorem Keeps.poll (s : State) : Keeps s s.poll where
  cfg := by simp
  buffer := by simp
  ticks := by simp
  status := by simp
  pc := by simp [State.pc]
  memory := by simp
  trace := ⟨[.poll s.nextAnswer], rfl, by simp [Event.valid]⟩

theorem Keeps.storeDouble (s : State) {a : Nat} (ha : 2 * a + 1 < s.cfg.cap) (v : BitVec 64) :
    Keeps s (s.storeDouble a v) where
  cfg := rfl
  buffer := rfl
  ticks := rfl
  status := rfl
  pc := rfl
  memory := fun hm => State.storeDouble_wf hm ha v
  trace := ⟨[], by simp, by simp⟩

/-! ### Spec lemmas of the computations -/

theorem narrow_ok_of_fits {policy : OverflowPolicy} {op : ArithOp} {a b : I64} {n : Int} (h : fits64 n = true) :
    narrow policy op a b n = .ok (wrap64 n) := by simp [narrow, h]

theorem narrow_wrap {op : ArithOp} {a b : I64} {n : Int} : narrow .wrap op a b n = .ok (wrap64 n) := by
  simp [narrow]

theorem narrow_fault {op : ArithOp} {a b : I64} {n : Int} (h : fits64 n = false) :
    narrow .fault op a b n = .error (.arithOverflow op a b) := by simp [narrow, h]

theorem narrow_error {policy : OverflowPolicy} {op : ArithOp} {a b : I64} {n : Int} {c : FaultCause}
    (h : narrow policy op a b n = .error c) :
    policy = .fault ∧ fits64 n = false ∧ c = .arithOverflow op a b := by
  unfold narrow at h
  split at h
  · simp at h
  · rename_i hf
    cases policy
    · simp at h
      exact ⟨rfl, by simpa using hf, h.symm⟩
    · simp at h

theorem divide_error {n d : I64} {c : FaultCause} (h : divide n d = .error c) :
    n.toInt = -2 ^ 63 ∧ d.toInt = -1 ∧ c = .divOverflow n d := by
  unfold divide at h
  split at h
  · simp at h
  · split at h
    · rename_i hc
      simp at h
      exact ⟨hc.1, hc.2, h.symm⟩
    · simp at h

theorem validChar_iff {v : I64} : validChar v = true ↔ 0 ≤ v.toInt ∧ scalarValue v.toInt.toNat := by
  simp only [validChar, scalarValue, Bool.and_eq_true, decide_eq_true_eq, Bool.not_eq_true', Bool.and_eq_false_iff,
    decide_eq_false_iff_not]
  omega

theorem checkedPair_ok {s : State} {a : Nat} (h : checkedPair s = .ok a) :
    pairIndex s.cfg.cap (s.role .memAddr) = some a := by
  unfold checkedPair at h
  split at h <;> simp_all

theorem checkedPair_error {s : State} {c : FaultCause} (h : checkedPair s = .error c) :
    c = .badMemAddress (s.role .memAddr) ∧ pairIndex s.cfg.cap (s.role .memAddr) = none := by
  unfold checkedPair at h
  split at h <;> simp_all

/-! ### What a trigger can do -/

theorem narrowedInto_done {op : ArithOp} {a b r : Role} {s t : State} {u : Unit}
    (h : narrowedInto op a b r s = .done u t) : ∃ v, t = s.setRole r v := by
  unfold narrowedInto at h
  split at h <;> simp at h
  exact ⟨_, h.symm⟩

theorem narrowedInto_raised {op : ArithOp} {a b r : Role} {s t : State} {c : FaultCause}
    (h : narrowedInto op a b r s = .raised c t) :
    t = s ∧ s.cfg.arithOverflow = .fault ∧ fits64 (op.exact (s.role a) (s.role b)) = false ∧
      c = .arithOverflow op (s.role a) (s.role b) := by
  unfold narrowedInto at h
  split at h
  · simp at h
  · rename_i hn
    obtain ⟨hp, hf, rfl⟩ := narrow_error hn
    simp at h
    exact ⟨h.2.symm, hp, hf, h.1.symm⟩

theorem emitChar_done {port : Port} {v : I64} {s t : State} {u : Unit} (h : emitChar port v s = .done u t) :
    validChar v = true ∧ t = s.emit (.char port v.toInt.toNat) := by
  unfold emitChar at h
  split at h <;> simp at h
  exact ⟨‹_›, h.symm⟩

theorem emitChar_raised {port : Port} {v : I64} {s t : State} {c : FaultCause}
    (h : emitChar port v s = .raised c t) : t = s ∧ validChar v = false ∧ c = .badChar port v := by
  unfold emitChar at h
  cases hv : validChar v
  · simp only [hv, Bool.false_eq_true, if_false, Run.raised.injEq] at h
    exact ⟨h.2.symm, rfl, h.1.symm⟩
  · simp [hv] at h

/-- A trigger that completes keeps all that `Keeps` names. -/
theorem runTrigger_done {s t : State} (hc : s.cfg.conforming = true) {ph : Phase} {op : Op} {u : Unit}
    (h : runTrigger ph op s = .done u t) : Keeps s t := by
  cases op <;> simp only [runTrigger] at h
  case add => obtain ⟨v, rfl⟩ := narrowedInto_done h; exact Keeps.setRole hc (by decide) v
  case sub => obtain ⟨v, rfl⟩ := narrowedInto_done h; exact Keeps.setRole hc (by decide) v
  case mul => obtain ⟨v, rfl⟩ := narrowedInto_done h; exact Keeps.setRole hc (by decide) v
  case div =>
    unfold opDiv at h
    split at h <;> simp at h
    subst h
    exact (Keeps.setRole hc (by decide) _).trans (Keeps.setRole (by simpa using hc) (by decide) _)
  case lt => simp only [opLt, Run.done.injEq] at h; obtain ⟨-, rfl⟩ := h; exact Keeps.setRole hc (by decide) _
  case sel => simp only [opSel, Run.done.injEq] at h; obtain ⟨-, rfl⟩ := h; exact Keeps.setRole hc (by decide) _
  case conOut =>
    unfold opConOut at h
    split at h
    · simp only [Run.done.injEq] at h
      obtain ⟨-, rfl⟩ := h
      exact Keeps.emit s trivial
    · rename_i hne
      obtain ⟨hv, rfl⟩ := emitChar_done h
      rw [validChar_iff] at hv
      refine Keeps.emit s ⟨hv.2, fun _ he => hne ?_⟩
      apply BitVec.eq_of_toInt_eq
      rw [← he]
      omega
  case conIn =>
    simp only [opConIn, Run.done.injEq] at h
    obtain ⟨-, rfl⟩ := h
    exact (Keeps.poll s).trans (Keeps.setRole (by simpa using hc) (by decide) _)
  case secOut =>
    obtain ⟨hv, rfl⟩ := emitChar_done h
    rw [validChar_iff] at hv
    exact Keeps.emit s ⟨hv.2, by simp⟩
  case secNl => simp only [opSecNl, Run.done.injEq] at h; obtain ⟨-, rfl⟩ := h; exact Keeps.setRole hc (by decide) _
  case memStore =>
    unfold opMemStore at h
    split at h <;> simp at h
    rename_i hp
    subst h
    exact Keeps.storeDouble s (pairIndex_eq_some (checkedPair_ok hp)).2 _
  case memLoad =>
    unfold opMemLoad at h
    split at h <;> simp at h
    subst h
    exact Keeps.setRole hc (by decide) _

/-- A trigger that faults changes nothing (R228), and its fault is genuine (R221). -/
theorem runTrigger_raised {s t : State} {ph : Phase} {op : Op} {c : FaultCause}
    (h : runTrigger ph op s = .raised c t) : t = s ∧ c.genuine s := by
  cases op <;> simp only [runTrigger] at h
  case add => obtain ⟨rfl, hp, hf, rfl⟩ := narrowedInto_raised h; exact ⟨rfl, rfl, rfl, hf, hp⟩
  case sub => obtain ⟨rfl, hp, hf, rfl⟩ := narrowedInto_raised h; exact ⟨rfl, rfl, rfl, hf, hp⟩
  case mul => obtain ⟨rfl, hp, hf, rfl⟩ := narrowedInto_raised h; exact ⟨rfl, rfl, rfl, hf, hp⟩
  case div =>
    unfold opDiv at h
    split at h
    · simp at h
    · rename_i hd
      obtain ⟨hn, hm, rfl⟩ := divide_error hd
      simp only [Run.raised.injEq] at h
      obtain ⟨rfl, rfl⟩ := h
      exact ⟨rfl, rfl, rfl, hn, hm⟩
  case lt => simp [opLt] at h
  case sel => simp [opSel] at h
  case conOut =>
    unfold opConOut at h
    split at h
    · simp at h
    · obtain ⟨rfl, hv, rfl⟩ := emitChar_raised h
      exact ⟨rfl, rfl, hv, fun _ => ‹_›⟩
  case conIn => simp [opConIn] at h
  case secOut =>
    obtain ⟨rfl, hv, rfl⟩ := emitChar_raised h
    exact ⟨rfl, rfl, hv, by simp⟩
  case secNl => simp [opSecNl] at h
  case memStore =>
    unfold opMemStore at h
    split at h
    · simp at h
    · rename_i hp
      obtain ⟨rfl, hn⟩ := checkedPair_error hp
      simp only [Run.raised.injEq] at h
      obtain ⟨rfl, rfl⟩ := h
      exact ⟨rfl, rfl, hn⟩
  case memLoad =>
    unfold opMemLoad at h
    split at h
    · simp at h
    · rename_i hp
      obtain ⟨rfl, hn⟩ := checkedPair_error hp
      simp only [Run.raised.injEq] at h
      obtain ⟨rfl, rfl⟩ := h
      exact ⟨rfl, rfl, hn⟩

/-! ### Get and Set -/

@[simp] theorem Run.andThen_done {α β : Type} (a : α) (s : State) (f : α → State → Run β) :
    (Run.done a s).andThen f = f a s := rfl

@[simp] theorem Run.andThen_raised {α β : Type} (c : FaultCause) (s : State) (f : α → State → Run β) :
    (Run.raised c s : Run α).andThen f = .raised c s := rfl

@[simp] theorem runTriggers_nil (ph : Phase) (s : State) : runTriggers ph [] s = .done () s := rfl

@[simp] theorem runTriggers_one (ph : Phase) (op : Op) (s : State) :
    runTriggers ph [op] s = runTrigger ph op s := by
  simp only [runTriggers]
  cases runTrigger ph op s <;> rfl

/-- `Set` of an index at or above `NREG` (R111). -/
theorem regSet_out {s : State} {d : Nat} (h : s.cfg.nreg ≤ d) (v : I64) :
    regSet d v s = .raised (.badRegister d) s := by simp [regSet, h]

/-- `Set` of a register that only stores (R120). -/
theorem regSet_stores {s : State} {d : Nat} (h : s.cfg.WriteOnlyStores d) (v : I64) :
    regSet d v s = .done () (s.setReg d v) := by
  rw [regSet, if_neg (by have := h.1; omega), Config.writeTriggers_eq_nil h.2, runTriggers_nil]

/-- `Set` of a write-triggered register stores and runs its one trigger (R111, R123). -/
theorem regSet_fires {s : State} (hc : s.cfg.conforming = true) {e : Role × Op}
    (he : e ∈ Config.writers s.cfg.operandTriggers) (v : I64) :
    regSet (s.cfg.index e.1) v s = runTrigger .write e.2 (s.setRole e.1 v) := by
  rw [regSet, if_neg (by have := Config.index_lt hc e.1; omega), Config.writeTriggers_of_mem hc he, runTriggers_one]
  rfl

/-- `Get` of an index at or above `NREG` (R112). -/
theorem regGet_out {s : State} {i : Nat} (h : s.cfg.nreg ≤ i) : regGet i s = .raised (.badRegister i) s := by
  simp [regGet, h]

/-- `Get` of a register that only reads (R120). -/
theorem regGet_reads {s : State} {i : Nat} (h : s.cfg.ReadOnlyReads i) : regGet i s = .done (s.reg i) s := by
  rw [regGet, if_neg (by have := h.1; omega), Config.readTriggers_eq_nil h.2]
  rfl

/-- `Get` of a read-triggered register runs its one trigger and reads what it left (R112, R116). -/
theorem regGet_fires {s : State} (hc : s.cfg.conforming = true) {e : Role × Op} (he : e ∈ Config.readers) :
    regGet (s.cfg.index e.1) s =
      (runTrigger .read e.2 s).andThen fun _ t => .done (t.reg (s.cfg.index e.1)) t := by
  rw [regGet, if_neg (by have := Config.index_lt hc e.1; omega), Config.readTriggers_of_mem hc he, runTriggers_one]

/-- A `Get` that completes. -/
theorem regGet_done {s t : State} (hc : s.cfg.conforming = true) {i : Nat} {v : I64}
    (h : regGet i s = .done v t) : i < s.cfg.nreg ∧ Keeps s t ∧ v = t.reg i := by
  rcases Config.read_cases s.cfg i with hi | hi | ⟨e, he, rfl⟩
  · simp [regGet_out hi] at h
  · rw [regGet_reads hi] at h
    simp only [Run.done.injEq] at h
    obtain ⟨rfl, rfl⟩ := h
    exact ⟨hi.1, Keeps.refl s, rfl⟩
  · rw [regGet_fires hc he] at h
    cases hr : runTrigger .read e.2 s with
    | done u t' =>
      simp only [hr, Run.andThen_done, Run.done.injEq] at h
      obtain ⟨rfl, rfl⟩ := h
      exact ⟨Config.index_lt hc e.1, runTrigger_done hc hr, rfl⟩
    | raised c t' => simp [hr] at h

/-- A `Get` that faults changes nothing, and its fault is genuine. -/
theorem regGet_raised {s t : State} (hc : s.cfg.conforming = true) {i : Nat} {c : FaultCause}
    (h : regGet i s = .raised c t) : t = s ∧ c.genuine s := by
  rcases Config.read_cases s.cfg i with hi | hi | ⟨e, he, rfl⟩
  · rw [regGet_out hi] at h
    simp only [Run.raised.injEq] at h
    obtain ⟨rfl, rfl⟩ := h
    exact ⟨rfl, hi⟩
  · simp [regGet_reads hi] at h
  · rw [regGet_fires hc he] at h
    cases hr : runTrigger .read e.2 s with
    | done u t' => simp [hr] at h
    | raised c' t' =>
      simp only [hr, Run.andThen_raised, Run.raised.injEq] at h
      obtain ⟨rfl, rfl⟩ := h
      exact runTrigger_raised hr

/-- A `Set` that completes: the store, then what its trigger keeps. -/
theorem regSet_done {s t : State} (hc : s.cfg.conforming = true) {d : Nat} {v : I64} {u : Unit}
    (h : regSet d v s = .done u t) : d < s.cfg.nreg ∧ Keeps (s.setReg d v) t := by
  rcases Config.write_cases s.cfg d with hd | hd | ⟨e, he, rfl⟩
  · simp [regSet_out hd] at h
  · rw [regSet_stores hd] at h
    simp only [Run.done.injEq] at h
    obtain ⟨-, rfl⟩ := h
    exact ⟨hd.1, Keeps.refl _⟩
  · rw [regSet_fires hc he] at h
    exact ⟨Config.index_lt hc e.1, runTrigger_done (by simpa using hc) h⟩

/-- A `Set` that faults: before the store for a bad index, after it for a trigger; the fault is genuine. -/
theorem regSet_raised {s t : State} (hc : s.cfg.conforming = true) {d : Nat} {v : I64} {c : FaultCause}
    (h : regSet d v s = .raised c t) :
    (s.cfg.nreg ≤ d ∧ t = s ∧ c = .badRegister d) ∨ (d < s.cfg.nreg ∧ t = s.setReg d v ∧ c.genuine t) := by
  rcases Config.write_cases s.cfg d with hd | hd | ⟨e, he, rfl⟩
  · rw [regSet_out hd] at h
    simp only [Run.raised.injEq] at h
    exact .inl ⟨hd, h.2.symm, h.1.symm⟩
  · simp [regSet_stores hd] at h
  · rw [regSet_fires hc he] at h
    obtain ⟨rfl, hg⟩ := runTrigger_raised h
    exact .inr ⟨Config.index_lt hc e.1, rfl, hg⟩

end Sys2Proof.Machine
end

