-- ==== Sys2Proof/Laws/Exec.lean ====
section
/-! SUPPORT. What an instruction and a step can do, said once each. -/

namespace Sys2Proof.Machine

open Sys2Proof

/-- Both forms are one tick: the operand, then the delivery, then the count (R195). -/
theorem exec_eq (i : Instr) (s : State) :
    exec i s = finishTick ((operandOf i s).andThen fun v t => deliver s.pc i.dst v t) := by
  cases i <;> rfl

theorem exec_of_operand {i : Instr} {s t : State} {v : I64} (h : operandOf i s = .done v t) :
    exec i s = finishTick (regSet i.dst v (t.advance s.pc)) := by
  rw [exec_eq, h]
  rfl

theorem exec_of_operand_raised {i : Instr} {s t : State} {c : FaultCause} (h : operandOf i s = .raised c t) :
    exec i s = .next (t.takeFault c) := by
  rw [exec_eq, h]
  rfl

theorem finishTick_next (r : Run Unit) : ∃ t, finishTick r = .next t := by cases r <;> exact ⟨_, rfl⟩

/-- An instruction always answers a next state: completed, or faulted as the spec says (R220). -/
theorem exec_next (i : Instr) (s : State) : ∃ t, exec i s = .next t := by
  rw [exec_eq]
  exact finishTick_next _

/-- An operand that is read leaves all that `Keeps` names. -/
theorem operandOf_done {s t : State} (hc : s.cfg.conforming = true) {i : Instr} {v : I64}
    (h : operandOf i s = .done v t) : Keeps s t := by
  cases i with
  | movImm n d =>
    simp only [operandOf, immediateOperand, Run.done.injEq] at h
    obtain ⟨-, rfl⟩ := h
    exact Keeps.refl s
  | movReg r d => exact (regGet_done hc h).2.1

theorem operandOf_raised {s t : State} (hc : s.cfg.conforming = true) {i : Instr} {c : FaultCause}
    (h : operandOf i s = .raised c t) : t = s ∧ c.genuine s := by
  cases i with
  | movImm n d => simp [operandOf, immediateOperand] at h
  | movReg r d => exact regGet_raised hc h

/-- What an instruction can do: its operand faults; or its delivery faults, at the index or in a trigger; or it
completes and is counted. -/
theorem exec_cases {s t : State} (hc : s.cfg.conforming = true) {i : Instr} (h : exec i s = .next t) :
    (∃ c, operandOf i s = .raised c s ∧ t = s.takeFault c ∧ c.genuine s) ∨
    (∃ v s1, operandOf i s = .done v s1 ∧ Keeps s s1 ∧ s.cfg.nreg ≤ i.dst ∧
      t = (s1.advance s.pc).takeFault (.badRegister i.dst)) ∨
    (∃ v s1 c, operandOf i s = .done v s1 ∧ Keeps s s1 ∧ i.dst < s.cfg.nreg ∧
      regSet i.dst v (s1.advance s.pc) = .raised c ((s1.advance s.pc).setReg i.dst v) ∧
      t = ((s1.advance s.pc).setReg i.dst v).takeFault c ∧ c.genuine ((s1.advance s.pc).setReg i.dst v)) ∨
    (∃ v s1 u, operandOf i s = .done v s1 ∧ Keeps s s1 ∧ i.dst < s.cfg.nreg ∧
      regSet i.dst v (s1.advance s.pc) = .done () u ∧ Keeps ((s1.advance s.pc).setReg i.dst v) u ∧
      t = u.countTick) := by
  cases ho : operandOf i s with
  | raised c s1 =>
    obtain ⟨rfl, hg⟩ := operandOf_raised hc ho
    rw [exec_of_operand_raised ho] at h
    simp only [Host.Outcome.next.injEq] at h
    exact .inl ⟨c, rfl, h.symm, hg⟩
  | done v s1 =>
    have hk := operandOf_done hc ho
    have hc1 : (s1.advance s.pc).cfg.conforming = true := by simpa [hk.cfg] using hc
    have hn : (s1.advance s.pc).cfg.nreg = s.cfg.nreg := by simp [hk.cfg]
    rw [exec_of_operand ho] at h
    cases hs : regSet i.dst v (s1.advance s.pc) with
    | raised c u =>
      rw [hs] at h
      simp only [finishTick, Host.Outcome.next.injEq] at h
      rcases regSet_raised hc1 hs with ⟨hd, rfl, rfl⟩ | ⟨hd, rfl, hg⟩
      · exact .inr (.inl ⟨v, s1, rfl, hk, by omega, h.symm⟩)
      · exact .inr (.inr (.inl ⟨v, s1, c, rfl, hk, by omega, hs, h.symm, hg⟩))
    | done u' u =>
      rw [hs] at h
      simp only [finishTick, Host.Outcome.next.injEq] at h
      obtain ⟨hd, hk2⟩ := regSet_done hc1 hs
      exact .inr (.inr (.inr ⟨v, s1, u, rfl, hk, by omega, hs, hk2, h.symm⟩))

/-! ### The step -/

theorem step_running {s : State} (hr : s.status = .running) (hc : s.cfg.conforming = true)
    (hp : s.pcInRange = true) : step s = exec s.fetch s := by simp [step, hr, hc, hp]

theorem step_halts {s : State} (hr : s.status = .running) (hc : s.cfg.conforming = true)
    (hp : s.pcInRange = false) : step s = .next s.halt := by simp [step, hr, hc, hp]

/-- A step that answers a next state runs, under a conforming configuration, and halts or executes. -/
theorem step_cases {s t : State} (h : step s = .next t) :
    s.status = .running ∧ s.cfg.conforming = true ∧
      ((s.pcInRange = false ∧ t = s.halt) ∨ (s.pcInRange = true ∧ exec s.fetch s = .next t)) := by
  unfold step at h
  cases hs : s.status with
  | halted n p => simp [hs] at h
  | faulted c => simp [hs] at h
  | running =>
    simp only [hs] at h
    by_cases hc : s.cfg.conforming = true
    · by_cases hp : s.pcInRange = true
      · simp only [hc, hp, if_true] at h
        exact ⟨rfl, hc, .inr ⟨hp, h⟩⟩
      · simp only [hc, hp, if_true] at h
        exact ⟨rfl, hc, .inl ⟨by simpa using hp, by simpa using h.symm⟩⟩
    · simp [hc] at h

/-- The decoded fetch is the decoding of the fetched word (R64, R198). -/
theorem fetch_eq (s : State) : s.fetch = decode s.fetchWord := rfl

/-! ### Runs -/

@[simp] theorem run_zero (s : State) : run 0 s = .next s := rfl

theorem run_succ_next {s t : State} (h : step s = .next t) (n : Nat) : run (n + 1) s = run n t := by
  simp [run, h]

/-- A run of one more step answers a next state through a step that does. -/
theorem run_succ_cases {s u : State} {n : Nat} (h : run (n + 1) s = .next u) :
    ∃ t, step s = .next t ∧ run n t = .next u := by
  rw [run] at h
  cases hs : step s with
  | next t => exact ⟨t, rfl, by simpa [hs] using h⟩
  | fault r => simp [hs] at h
  | refused r => simp [hs] at h

/-- From a state that is not running no step is made. -/
theorem run_ended {s t : State} {n : Nat} (hs : s.status ≠ .running) (h : run n s = .next t) : n = 0 ∧ t = s := by
  cases n with
  | zero => exact ⟨rfl, by simpa using h.symm⟩
  | succ n =>
    obtain ⟨u, hu, -⟩ := run_succ_cases h
    exact absurd (step_cases hu).1 hs

theorem run_succ_fault {s : State} {r : Fault} (h : step s = .fault r) (n : Nat) : run (n + 1) s = .fault r := by
  simp [run, h]

theorem run_succ_refused {s : State} {r : Refusal} (h : step s = .refused r) (n : Nat) :
    run (n + 1) s = .refused r := by simp [run, h]

theorem hostRun_succ (M : Host.Core) (n : Nat) (s : M.State) :
    (∀ t, M.step s = .next t → M.run (n + 1) s = M.run n t) ∧
      (∀ r, M.step s = .fault r → M.run (n + 1) s = .fault r) ∧
      (∀ r, M.step s = .refused r → M.run (n + 1) s = .refused r) := by
  refine ⟨fun t h => ?_, fun r h => ?_, fun r h => ?_⟩ <;> simp [Host.Core.run, h]

/-- The model's runs are the host's. -/
theorem run_eq_core_run (n : Nat) (s : State) : Host.Core.run Sys2Proof.core n s = run n s := by
  induction n generalizing s with
  | zero => rfl
  | succ n ih =>
    obtain ⟨hn, hf, hr⟩ := hostRun_succ Sys2Proof.core n s
    cases h : step s with
    | next t => exact (hn t h).trans ((ih t).trans (run_succ_next h n).symm)
    | fault r => exact (hf r h).trans (run_succ_fault h n).symm
    | refused r => exact (hr r h).trans (run_succ_refused h n).symm

/-- A property that holds and that every step keeps holds of every state that is reached. -/
theorem reaches_induction {P : State → Prop} {s t : State} (h : Reaches s t) (h0 : P s)
    (hstep : ∀ u u', P u → step u = .next u' → P u') : P t := by
  induction h with
  | refl => exact h0
  | tick _ hs ih => exact hstep _ _ ih hs

end Sys2Proof.Machine
end

