-- ==== Sys2Proof/Laws/Frames.lean ====
section
/-! SUPPORT. What each operation leaves unchanged: the registers, memory and the host interface, operation by
operation, and which case an operand's read and a destination's write fall into. -/

namespace Sys2Proof.Machine

open Sys2Proof

/-- The registers that an operation may store to (R118). -/
def resultRoles : Op → List Role
  | .add => [.addR]
  | .sub => [.subR]
  | .mul => [.mulR]
  | .div => [.divQ, .divRem]
  | .lt => [.ltR]
  | .sel => [.selR]
  | .conIn => [.conIn]
  | .secNl => [.secNl]
  | .memLoad => [.memData]
  | .conOut | .secOut | .memStore => []

theorem runTrigger_reg {s t : State} {ph : Phase} {op : Op} {u : Unit} (h : runTrigger ph op s = .done u t) {j : Nat}
    (hj : ∀ q ∈ resultRoles op, s.cfg.index q ≠ j) : t.reg j = s.reg j := by
  cases op <;> simp only [runTrigger, resultRoles, List.mem_cons, List.not_mem_nil, or_false, forall_eq_or_imp,
    forall_eq] at h hj
  case add => obtain ⟨v, rfl⟩ := narrowedInto_done h; exact State.setReg_reg_ne _ _ hj
  case sub => obtain ⟨v, rfl⟩ := narrowedInto_done h; exact State.setReg_reg_ne _ _ hj
  case mul => obtain ⟨v, rfl⟩ := narrowedInto_done h; exact State.setReg_reg_ne _ _ hj
  case div =>
    unfold opDiv at h
    split at h <;> simp at h
    subst h
    rw [State.setRole, State.setRole_cfg, State.setReg_reg_ne _ _ hj.2, State.setRole, State.setReg_reg_ne _ _ hj.1]
  case lt => simp only [opLt, Run.done.injEq] at h; obtain ⟨-, rfl⟩ := h; exact State.setReg_reg_ne _ _ hj
  case sel => simp only [opSel, Run.done.injEq] at h; obtain ⟨-, rfl⟩ := h; exact State.setReg_reg_ne _ _ hj
  case conOut =>
    unfold opConOut at h
    split at h
    · simp only [Run.done.injEq] at h; obtain ⟨-, rfl⟩ := h; rfl
    · obtain ⟨-, rfl⟩ := emitChar_done h; rfl
  case conIn =>
    simp only [opConIn, Run.done.injEq] at h
    obtain ⟨-, rfl⟩ := h
    rw [State.setRole, State.poll_cfg, State.setReg_reg_ne _ _ hj, State.poll_reg]
  case secOut => obtain ⟨-, rfl⟩ := emitChar_done h; rfl
  case secNl => simp only [opSecNl, Run.done.injEq] at h; obtain ⟨-, rfl⟩ := h; exact State.setReg_reg_ne _ _ hj
  case memStore =>
    unfold opMemStore at h
    split at h <;> simp at h
    subst h; rfl
  case memLoad =>
    unfold opMemLoad at h
    split at h <;> simp at h
    subst h
    exact State.setReg_reg_ne _ _ hj

/-- Only `MEMSTORE` changes memory, and it is a store of `MEM_DATA` at a valid pair (R66, R182). -/
theorem runTrigger_mem {s t : State} {ph : Phase} {op : Op} {u : Unit} (h : runTrigger ph op s = .done u t) :
    (op ≠ .memStore → t.mem = s.mem) ∧
    (op = .memStore → ∃ a, pairIndex s.cfg.cap (s.role .memAddr) = some a ∧
      t = s.storeDouble a (s.role .memData)) := by
  cases op <;> simp only [runTrigger] at h <;> simp
  case add => obtain ⟨v, rfl⟩ := narrowedInto_done h; rfl
  case sub => obtain ⟨v, rfl⟩ := narrowedInto_done h; rfl
  case mul => obtain ⟨v, rfl⟩ := narrowedInto_done h; rfl
  case div =>
    unfold opDiv at h
    split at h <;> simp at h
    subst h; rfl
  case lt => simp only [opLt, Run.done.injEq] at h; obtain ⟨-, rfl⟩ := h; rfl
  case sel => simp only [opSel, Run.done.injEq] at h; obtain ⟨-, rfl⟩ := h; rfl
  case conOut =>
    unfold opConOut at h
    split at h
    · simp only [Run.done.injEq] at h; obtain ⟨-, rfl⟩ := h; rfl
    · obtain ⟨-, rfl⟩ := emitChar_done h; rfl
  case conIn => simp only [opConIn, Run.done.injEq] at h; obtain ⟨-, rfl⟩ := h; simp
  case secOut => obtain ⟨-, rfl⟩ := emitChar_done h; rfl
  case secNl => simp only [opSecNl, Run.done.injEq] at h; obtain ⟨-, rfl⟩ := h; rfl
  case memStore =>
    unfold opMemStore at h
    split at h <;> simp at h
    exact ⟨_, checkedPair_ok ‹_›, h.symm⟩
  case memLoad =>
    unfold opMemLoad at h
    split at h <;> simp at h
    subst h; rfl

/-- Only `CONIN` polls, and only the output operations emit, one event each (R166, R168). -/
theorem runTrigger_host {s t : State} {ph : Phase} {op : Op} {u : Unit} (h : runTrigger ph op s = .done u t) :
    (op ≠ .conIn → t.inputs = s.inputs ∧ t.freeDraws = s.freeDraws ∧
      ∃ os : List Output, t.trace = s.trace ++ os.map .emit ∧ os.length ≤ 1 ∧
        (op ≠ .conOut → op ≠ .secOut → os = [])) ∧
    (op = .conIn → t = s.poll.setRole .conIn (answerValue s.nextAnswer)) := by
  have silent : ∀ {t : State}, t.inputs = s.inputs → t.freeDraws = s.freeDraws → t.trace = s.trace →
      t.inputs = s.inputs ∧ t.freeDraws = s.freeDraws ∧ ∃ os : List Output,
        t.trace = s.trace ++ os.map .emit ∧ os.length ≤ 1 ∧ (op ≠ .conOut → op ≠ .secOut → os = []) :=
    fun h1 h2 h3 => ⟨h1, h2, [], by simpa using h3, by simp, by simp⟩
  cases op <;> simp only [runTrigger] at h <;> simp only [reduceCtorEq, false_implies, and_true, ne_eq, not_false_eq_true,
    true_implies, not_true_eq_false, true_and]
  case add => obtain ⟨v, rfl⟩ := narrowedInto_done h; exact ⟨rfl, rfl, [], by simp, by simp, by simp⟩
  case sub => obtain ⟨v, rfl⟩ := narrowedInto_done h; exact ⟨rfl, rfl, [], by simp, by simp, by simp⟩
  case mul => obtain ⟨v, rfl⟩ := narrowedInto_done h; exact ⟨rfl, rfl, [], by simp, by simp, by simp⟩
  case div =>
    unfold opDiv at h
    split at h <;> simp at h
    subst h; exact ⟨rfl, rfl, [], by simp, by simp, by simp⟩
  case lt => simp only [opLt, Run.done.injEq] at h; obtain ⟨-, rfl⟩ := h; exact ⟨rfl, rfl, [], by simp, by simp, by simp⟩
  case sel =>
    simp only [opSel, Run.done.injEq] at h; obtain ⟨-, rfl⟩ := h; exact ⟨rfl, rfl, [], by simp, by simp, by simp⟩
  case conOut =>
    unfold opConOut at h
    split at h
    · simp only [Run.done.injEq] at h; obtain ⟨-, rfl⟩ := h; exact ⟨rfl, rfl, [_], rfl, by simp⟩
    · obtain ⟨-, rfl⟩ := emitChar_done h; exact ⟨rfl, rfl, [_], rfl, by simp⟩
  case conIn => simp only [opConIn, Run.done.injEq] at h; exact h.2.symm
  case secOut => obtain ⟨-, rfl⟩ := emitChar_done h; exact ⟨rfl, rfl, [_], rfl, by simp⟩
  case secNl =>
    simp only [opSecNl, Run.done.injEq] at h; obtain ⟨-, rfl⟩ := h; exact ⟨rfl, rfl, [], by simp, by simp, by simp⟩
  case memStore =>
    unfold opMemStore at h
    split at h <;> simp at h
    subst h; exact ⟨rfl, rfl, [], by simp, by simp, by simp⟩
  case memLoad =>
    unfold opMemLoad at h
    split at h <;> simp at h
    subst h; exact ⟨rfl, rfl, [], by simp, by simp, by simp⟩

/-- An operand that is read either changes nothing, or is that of a read-triggered source whose one trigger ran. -/
theorem operandOf_cases {s t : State} (hc : s.cfg.conforming = true) {i : Instr} {v : I64}
    (h : operandOf i s = .done v t) :
    (t = s ∧ ∀ r ∈ readFiring, ∀ d, i ≠ .movReg (s.cfg.index r) d) ∨
    ∃ e ∈ Config.readers, ∃ d, i = .movReg (s.cfg.index e.1) d ∧ runTrigger .read e.2 s = .done () t := by
  cases i with
  | movImm n d =>
    simp only [operandOf, immediateOperand, Run.done.injEq] at h
    exact .inl ⟨h.2.symm, fun r _ d' => by simp⟩
  | movReg r d =>
    rcases Config.read_cases s.cfg r with hi | hi | ⟨e, he, rfl⟩
    · simp [operandOf, registerOperand, regGet_out hi] at h
    · simp only [operandOf, registerOperand, regGet_reads hi, Run.done.injEq] at h
      exact .inl ⟨h.2.symm, fun q hq d' hd => hi.2 q hq (by simpa using (Instr.movReg.inj hd).1.symm)⟩
    · simp only [operandOf, registerOperand, regGet_fires hc he] at h
      cases hr : runTrigger .read e.2 s with
      | raised c u => simp [hr] at h
      | done u t' =>
        simp only [hr, Run.andThen, Run.done.injEq] at h
        obtain ⟨-, rfl⟩ := h
        exact .inr ⟨e, he, d, rfl, hr⟩

/-- A completed write either only stored, or stored and ran the one trigger of its register. -/
theorem regSet_cases {s u : State} (hc : s.cfg.conforming = true) {d : Nat} {v : I64}
    (h : regSet d v s = .done () u) :
    (u = s.setReg d v ∧ s.cfg.WriteOnlyStores d) ∨
    ∃ e ∈ Config.writers s.cfg.operandTriggers, d = s.cfg.index e.1 ∧
      runTrigger .write e.2 (s.setReg d v) = .done () u := by
  rcases Config.write_cases s.cfg d with hd | hd | ⟨e, he, rfl⟩
  · simp [regSet_out hd] at h
  · simp only [regSet_stores hd, Run.done.injEq] at h; exact .inl ⟨h.2.symm, hd⟩
  · rw [regSet_fires hc he] at h; exact .inr ⟨e, he, rfl, h⟩

/-- Memory as an operand's read leaves it (R118: no read-trigger stores). -/
theorem operandOf_mem {s t : State} (hc : s.cfg.conforming = true) {i : Instr} {v : I64}
    (h : operandOf i s = .done v t) : t.mem = s.mem := by
  rcases operandOf_cases hc h with ⟨rfl, -⟩ | ⟨e, he, d, -, hr⟩
  · rfl
  · refine (runTrigger_mem hr).1 ?_
    simp only [Config.readers, List.mem_cons, List.not_mem_nil, or_false] at he
    rcases he with rfl | rfl | rfl | rfl <;> decide

end Sys2Proof.Machine
end

