-- ==== Sys2Proof/Laws/PerInstr.lean ====
section
/-! SUPPORT. Statements made of every instruction, one lemma per constructor. -/

namespace Sys2Proof.Laws.FormBit

open Sys2Proof

/-- The word of an instruction carries the fixed bit of its row of spec/opcode_table.json: bit 31 is 1 for `mov.imm`
and 0 for `mov.reg`, whatever the operands are. -/
def Statement (i : Instr) : Prop :=
  (encode i).getLsbD 31 = match i with
    | .movImm _ _ => true
    | .movReg _ _ => false

theorem packFields_flag (flag : Bool) (operand : OperandField) (dst : Half) :
    (packFields flag operand dst).getLsbD 31 = flag := by
  rw [packFields, BitVec.getLsbD_cast, BitVec.getLsbD_append, BitVec.getLsbD_append]
  cases flag <;> rfl

theorem movImm (imm dst : Nat) : Statement (.movImm imm dst) := packFields_flag true _ _

theorem movReg (src dst : Nat) : Statement (.movReg src dst) := packFields_flag false _ _

end Sys2Proof.Laws.FormBit
end

