-- ==== Sys2Proof/Tests/Slice0.lean ====
section
/-! SUPPORT. The smoke tests of the well-formedness checks, words written out from the encoding, one-step vectors of
95_test_vectors.md, and for every statement with hypotheses a concrete state and operands that meet them. -/

namespace Sys2Proof.Tests

open Sys2Proof Sys2Proof.Machine

/-! ### Helpers -/

/-- The configuration of the vectors: the defaults with `CAP = 16` (95_test_vectors.md). -/
def cfg16 : Config := { Config.default with cap := 16 }

/-- The configuration of vector K13. -/
def cfgAlias : Config := { cfg16 with map := { RegMap.default with memCommit := 29 } }

/-- The initial state of a configuration with the listed registers set. -/
def start (cfg : Config) (l : List (Nat × Int)) : State :=
  l.foldl (fun s e => s.setReg e.1 (BitVec.ofInt 64 e.2)) (State.blank cfg)

/-- One step from `s`, with the word `w` placed at the counter, gives a next state that meets `p`. -/
def runsTo (s : State) (w : Nat) (p : State → Bool) : Bool :=
  match step (s.withFetchWord 32 w) with
  | .next t => p t
  | .fault _ => false
  | .refused _ => false

/-- Register `i` holds the number `n`. -/
def holds (t : State) (i : Nat) (n : Int) : Bool := decide ((t.reg i).toInt = n)

theorem cfg16_conforming : cfg16.conforming = true := by decide

theorem cfgAlias_conforming : cfgAlias.conforming = true := by decide

theorem fresh_inv {s : State} (hc : s.cfg.conforming = true) (hb : s.regs.length = s.cfg.nreg)
    (hm : s.mem.wf s.cfg.memInit s.cfg.cap = true) (ht : s.trace = []) (hr : s.status = .running) : s.Inv where
  conforming := hc
  buffer := hb
  memory := hm
  trace := by simp [ht]
  halt := by simp [hr]
  fault := by simp [hr]

theorem start_like (cfg : Config) (l : List (Nat × Int)) : (start cfg l).cfg = cfg ∧
    (start cfg l).regs.length = cfg.nreg ∧ (start cfg l).mem = [] ∧ (start cfg l).trace = [] ∧
    (start cfg l).status = .running := by
  have h : ∀ s : State, let t := l.foldl (fun s e => s.setReg e.1 (BitVec.ofInt 64 e.2)) s
      t.cfg = s.cfg ∧ t.regs.length = s.regs.length ∧ t.mem = s.mem ∧ t.trace = s.trace ∧ t.status = s.status := by
    induction l with
    | nil => intro s; simp
    | cons e l ih => intro s; simpa using ih (s.setReg e.1 (BitVec.ofInt 64 e.2))
  have := h (State.blank cfg)
  simpa [start, State.blank] using this

theorem start_inv {cfg : Config} (hc : cfg.conforming = true) (l : List (Nat × Int)) : (start cfg l).Inv := by
  obtain ⟨h1, h2, h3, h4, h5⟩ := start_like cfg l
  exact fresh_inv (by rw [h1]; exact hc) (by rw [h1]; exact h2) (by rw [h3]; rfl) h4 h5

/-! ### Well-formedness: each check refuses an ill-formed term -/

theorem test_immediate_out_of_range : (Instr.movImm 32768 0).wellFormed = false := by decide
theorem test_source_out_of_range : (Instr.movReg 32768 0).wellFormed = false := by decide
theorem test_immediate_destination_out_of_range : (Instr.movImm 0 65536).wellFormed = false := by decide
theorem test_register_destination_out_of_range : (Instr.movReg 0 65536).wellFormed = false := by decide

/-- R35 clause 1: index 31 with 31 registers. -/
theorem test_role_out_of_range : ({ cfg16 with nreg := 31 } : Config).rolesInRange = false := by decide

/-- R35 clause 2: `SUB_A` on the counter. -/
theorem test_role_on_counter :
    ({ cfg16 with map := { RegMap.default with subA := 27 } } : Config).pcApart = false := by decide

/-- R35 clause 3: `SUB_A` on `SUB_B`. -/
theorem test_roles_shared :
    ({ cfg16 with map := { RegMap.default with subA := 4 } } : Config).rolesDistinct = false := by decide

/-- R35 clause 4: another index for the counter. -/
theorem test_fixed_index_moved : ({ cfg16 with pcIdx := 32 } : Config).fixedIndices = false := by decide

/-- R6: no word at all, and one word too many. -/
theorem test_cap_out_of_range :
    ({ cfg16 with cap := 0 } : Config).capInRange = false ∧
      ({ cfg16 with cap := 2 ^ 63 } : Config).capInRange = false := by decide

/-- R6: a word, a register and an immediate of another width than the rules are written at. -/
theorem test_other_widths : ({ cfg16 with wordBits := 16 } : Config).widthsAsRuled = false ∧
    ({ cfg16 with regBits := 32 } : Config).widthsAsRuled = false ∧
    ({ cfg16 with immBits := 16 } : Config).widthsAsRuled = false := by decide

/-! ### Decoding: words written out from the encoding of R91 -/

/-- `I = 1`, `S = 3`, `dst = 20` (W2). -/
theorem test_decode_immediate : decode (BitVec.ofNat 32 0b10000000000000110000000000010100) = .movImm 3 20 := by
  decide

/-- `I = 0`, `S = 3`, `dst = 20` (W1). -/
theorem test_decode_register : decode (BitVec.ofNat 32 0b00000000000000110000000000010100) = .movReg 3 20 := by
  decide

/-- The top bits of each field: `S = 16384`, `dst = 32768`. -/
theorem test_decode_field_ends :
    decode (BitVec.ofNat 32 0b11000000000000001000000000000000) = .movImm 16384 32768 ∧
    decode (BitVec.ofNat 32 0b01000000000000001000000000000000) = .movReg 16384 32768 := by decide

/-- The first word of vector B1, and a partial word. -/
theorem test_decode_bytes :
    decodeBytes [0x12, 0x34, 0x56, 0x78, 0x9A] = .ok (decode 0x12345678, [0x9A]) ∧
    decodeBytes [0x01, 0x02, 0x03] = .error (.truncatedWord 3) := ⟨rfl, rfl⟩

/-- The table's numbering: 32 bits, bit 0 the least significant. -/
theorem test_decode_table_word :
    decodeTableWord 32 0x80030014 = some (.movImm 3 20) ∧ decodeTableWord 32 0x00030014 = some (.movReg 3 20) := by
  decide

/-! ### One step each: vectors of 95_test_vectors.md -/

/-- M2, M5, M8, M11: the immediate form to a plain register, to the counter and out of range. -/
theorem test_step_immediate_plain :
    runsTo (start cfg16 []) 0xFFFF0010 (fun t => holds t 16 32767 && holds t 27 1 && decide (t.ticks = 1)) = true ∧
    runsTo (start cfg16 [(27, 3)]) 0x8009001B (fun t => holds t 27 9) = true ∧
    runsTo (start cfg16 []) 0x80050028 (fun t => decide (t.status = .faulted (.badRegister 40)) && holds t 27 1 &&
      decide (t.ticks = 0)) = true ∧
    runsTo (start cfg16 []) 0x8001FFFF (fun t => decide (t.status = .faulted (.badRegister 65535))) = true := by
  decide

/-- A1, A3, T1, S2, Q3, LT4, O1, O2, SO2, K1, K4: the immediate form to trigger registers. -/
theorem test_step_immediate_triggers :
    runsTo (start cfg16 [(0, 3)]) 0x80040001 (fun t => holds t 2 7) = true ∧
    runsTo (start cfg16 [(0, 2 ^ 63 - 1), (2, 5)]) 0x80010001 (fun t => holds t 2 5 &&
      decide (t.status = .faulted (.arithOverflow .add 0x7FFFFFFFFFFFFFFF 1))) = true ∧
    runsTo (start cfg16 [(1, 4)]) 0x80030000 (fun t => holds t 2 7) = true ∧
    runsTo (start cfg16 [(3, 2)]) 0x80050004 (fun t => holds t 5 (-3)) = true ∧
    runsTo (start cfg16 [(9, -7)]) 0x8002000A (fun t => holds t 11 (-3) && holds t 12 (-1)) = true ∧
    runsTo (start cfg16 [(13, -1)]) 0x8000000E (fun t => holds t 15 1) = true ∧
    runsTo (start cfg16 []) 0x80410018 (fun t => decide (t.trace = [.emit (.char .primary 65)])) = true ∧
    runsTo (start cfg16 []) 0x81000018 (fun t => decide (t.trace = [.emit .clear])) = true ∧
    runsTo (start cfg16 []) 0x8100001A (fun t => decide (t.trace = [.emit (.char .secondary 256)])) = true ∧
    runsTo (start cfg16 [(30, 6), (29, 0x1234)]) 0x8000001F (fun t => decide (t.word 12 = 0) &&
      decide (t.word 13 = 0x1234)) = true ∧
    runsTo (start cfg16 [(30, 8)]) 0x8000001F (fun t => decide (t.status = .faulted (.badMemAddress 8))) = true := by
  decide

/-- M3, M6, M7, M9: the register form between plain registers and with the counter. -/
theorem test_step_register_plain :
    runsTo (start cfg16 [(17, -5)]) 0x00110010 (fun t => holds t 16 (-5) && holds t 17 (-5)) = true ∧
    runsTo (start cfg16 [(27, 3)]) 0x001B0010 (fun t => holds t 16 3 && holds t 27 4) = true ∧
    runsTo (start cfg16 [(27, 3)]) 0x001B001B (fun t => holds t 27 3 && decide (t.status = .running)) = true ∧
    runsTo (start cfg16 []) 0x00280010 (fun t => decide (t.status = .faulted (.badRegister 40)) && holds t 27 0 &&
      decide (t.ticks = 0)) = true := by decide

/-- E1, E4, IN1, IN2, IN5, O8, Q14, NL1, K5, K8: the register form from and to trigger registers. -/
theorem test_step_register_triggers :
    runsTo (start cfg16 [(20, 2), (21, 5), (22, 6), (23, 99)]) 0x00170010 (fun t => holds t 16 6) = true ∧
    runsTo (start cfg16 [(20, -2 ^ 63), (21, 5), (22, 6)]) 0x00170010 (fun t => holds t 16 6) = true ∧
    runsTo { start cfg16 [] with inputs := [some 0x41] } 0x00190010 (fun t => holds t 16 65 && holds t 25 65 &&
      decide (t.trace = [.poll (some 65)])) = true ∧
    runsTo { start cfg16 [] with inputs := [some 0xFF] } 0x00190010 (fun t => holds t 16 255) = true ∧
    runsTo { start cfg16 [] with inputs := [none] } 0x00190018 (fun t => holds t 27 1 && decide (t.ticks = 0) &&
      decide (t.status = .faulted (.badChar .primary (-1)))) = true ∧
    runsTo (start cfg16 [(16, 2 ^ 32 + 65)]) 0x00100018 (fun t =>
      decide (t.status = .faulted (.badChar .primary 0x100000041))) = true ∧
    runsTo (start cfg16 [(9, -2 ^ 63), (16, -1)]) 0x0010000A (fun t =>
      decide (t.status = .faulted (.divOverflow 0x8000000000000000 (-1)))) = true ∧
    runsTo (start cfg16 []) 0x001C0010 (fun t => holds t 16 10 && decide (t.trace = [])) = true ∧
    runsTo (start cfg16 [(30, -1)]) 0x001D0010 (fun t => holds t 27 0 && holds t 16 0 &&
      decide (t.status = .faulted (.badMemAddress (-1)))) = true ∧
    runsTo { start cfg16 [(30, 1)] with mem := [(2, 0x80000000)] } 0x001D0010 (fun t =>
      holds t 16 (-2 ^ 63)) = true := by decide

/-! ### Witnesses: for each statement with hypotheses, a concrete state and operands that meet them -/

theorem start_conforming (l : List (Nat × Int)) : (start cfg16 l).cfg.conforming = true := by
  rw [(start_like cfg16 l).1]; exact cfg16_conforming

theorem start_running (cfg : Config) (l : List (Nat × Int)) : (start cfg l).status = .running :=
  (start_like cfg l).2.2.2.2

theorem start16_inv (l : List (Nat × Int)) : (start cfg16 l).Inv := start_inv cfg16_conforming l

/-- Under `Wrap`. -/
def cfgWrap : Config := { cfg16 with arithOverflow := .wrap }

/-- Under `SecondOnly`. -/
def cfgSecond : Config := { cfg16 with operandTriggers := .secondOnly }

theorem cfgWrap_conforming : cfgWrap.conforming = true := by decide

theorem cfgSecond_conforming : cfgSecond.conforming = true := by decide

/-- The immediate form moves into any register. -/
theorem moves_imm (s : State) {n d : Nat} (h : (Instr.movImm n d).wellFormed = true) :
    Moves s (.movImm n d) (BitVec.ofNat 64 n) d s := ⟨h, rfl, rfl⟩

/-- The register form moves a value from a plain register, here 16. -/
theorem moves_reg16 (l : List (Nat × Int)) {d : Nat} (h : (Instr.movReg 16 d).wellFormed = true) :
    Moves (start cfg16 l) (.movReg 16 d) ((start cfg16 l).reg 16) d (start cfg16 l) :=
  ⟨h, rfl, regGet_reads (by rw [(start_like cfg16 l).1]; unfold Config.ReadOnlyReads; decide)⟩

theorem witness_DecodeOfEncodeIsTheInstruction :
    (Instr.movImm 32767 65535).wellFormed = true ∧ (Instr.movReg 32767 65535).wellFormed = true := by decide

theorem witness_WordFieldsByPosition : (0x80000000 : Word).toNat / 2 ^ 31 = 1 ∧ (0xFFFFFFFF : Word).toNat / 2 ^ 31 = 1 ∧
    (0x00000000 : Word).toNat / 2 ^ 31 = 0 ∧ (0x7FFFFFFF : Word).toNat / 2 ^ 31 = 0 := by decide

theorem witness_EncodingAsNumbers : 32767 ≤ 32767 ∧ 65535 ≤ 65535 := by decide

/-- Vector B4: eight bytes at base 15 cover word 15 alone. -/
theorem witness_LoaderWritesExactlyTheImage :
    (start cfg16 []).mem.wf (start cfg16 []).cfg.memInit (start cfg16 []).cfg.cap = true ∧
    (15 ≤ 15 ∧ 15 < (start cfg16 []).cfg.cap ∧ 15 - 15 < 8 / 4) ∧
    ¬ (15 ≤ 16 ∧ 16 < (start cfg16 []).cfg.cap ∧ 16 - 15 < 8 / 4) := by decide

theorem witness_InitializationValues : cfg16.conforming = true := cfg16_conforming

theorem witness_InitializationMeetsTheInvariant : cfgAlias.conforming = true := cfgAlias_conforming

/-- The counter at both ends of memory. -/
theorem witness_StepRunsTheDecodedWord :
    ((start cfg16 []).status = .running ∧ (start cfg16 []).cfg.conforming = true ∧
      0 ≤ (start cfg16 []).pc.toInt ∧ (start cfg16 []).pc.toInt < (start cfg16 []).cfg.cap) ∧
    ((start cfg16 [(27, 15)]).status = .running ∧ (start cfg16 [(27, 15)]).cfg.conforming = true ∧
      0 ≤ (start cfg16 [(27, 15)]).pc.toInt ∧ (start cfg16 [(27, 15)]).pc.toInt < (start cfg16 [(27, 15)]).cfg.cap) := by
  decide

theorem witness_PlacedInstructionRunsNext : (start cfg16 [(27, 15)]).Inv ∧ (start cfg16 [(27, 15)]).status = .running ∧
    (start cfg16 [(27, 15)]).pcInRange = true ∧ (Instr.movImm 1 16).wellFormed = true :=
  ⟨start16_inv _, start_running _ _, by decide, by decide⟩

/-- Vectors M12 and M13. -/
theorem witness_CounterOutsideMemoryHalts :
    ((start cfg16 [(27, 16)]).status = .running ∧ (start cfg16 [(27, 16)]).cfg.conforming = true ∧
      ((start cfg16 [(27, 16)]).cfg.cap : Int) ≤ (start cfg16 [(27, 16)]).pc.toInt) ∧
    ((start cfg16 [(27, -1)]).status = .running ∧ (start cfg16 [(27, -1)]).cfg.conforming = true ∧
      (start cfg16 [(27, -1)]).pc.toInt < 0) := by decide

theorem witness_NoStepLeavesAnEndedRun : (start cfg16 [(27, 16)]).halt.status ≠ .running ∧
    ((start cfg16 []).takeFault (.badRegister 40)).status ≠ .running := by decide

/-- The constraints hold of the vectors' configuration and fail where `SUB_A` stands on `SUB_B`. -/
theorem witness_NonConformingMapIsRefused : cfg16.conforming = true ∧
    (State.blank { cfg16 with map := { RegMap.default with subA := 4 } }).status = .running ∧
    (State.blank { cfg16 with map := { RegMap.default with subA := 4 } }).cfg.conforming = false := by decide

theorem witness_EveryStepKeepsTheInvariant : (start cfg16 []).Inv ∧ ∃ t, step (start cfg16 []) = .next t := by
  refine ⟨start16_inv _, ?_⟩
  rw [step_running (start_running _ _) (start_conforming _) (by decide)]
  exact exec_next _ _

/-- A completed tick, a halt and a fault. -/
theorem witness_RunningMachineAlwaysSteps :
    ((start cfg16 []).Inv ∧ (start cfg16 []).status = .running ∧ (start cfg16 []).pcInRange = true) ∧
    ((start cfg16 [(27, 16)]).Inv ∧ (start cfg16 [(27, 16)]).status = .running ∧
      (start cfg16 [(27, 16)]).pcInRange = false) ∧
    runsTo (start cfg16 []) 0x00280010 (fun t => decide (t.status = .faulted (.badRegister 40))) = true :=
  ⟨⟨start16_inv _, start_running _ _, by decide⟩, ⟨start16_inv _, start_running _ _, by decide⟩, by decide⟩

theorem witness_OnlyCompletedTicksAreCounted : (start cfg16 []).Inv ∧ (start cfg16 []).status = .running ∧
    (∃ t, exec (.movImm 0 16) (start cfg16 []) = .next t) ∧ ∃ t, exec (.movImm 5 40) (start cfg16 []) = .next t :=
  ⟨start16_inv _, start_running _ _, exec_next _ _, exec_next _ _⟩

/-- Vector M14: one completed tick at the last word, then the halt. -/
theorem witness_HaltReportsTheNumberOfMoves : (start cfg16 [(27, 15)]).Inv ∧ (start cfg16 [(27, 15)]).status = .running ∧
    (start cfg16 [(27, 15)]).ticks = 0 ∧
    (match run 1 (start cfg16 [(27, 15)]) with
      | .next t => decide (t.status = .running) && (match step t with
        | .next u => decide (u.status = .halted 1 16)
        | .fault _ => false
        | .refused _ => false)
      | .fault _ => false
      | .refused _ => false) = true :=
  ⟨start16_inv _, start_running _ _, by decide, by decide⟩

theorem witness_StepKeepsConfigurationAndHistory : ∃ t, step (start cfg16 []) = .next t :=
  witness_EveryStepKeepsTheInvariant.2

/-- Vector M7. -/
theorem witness_SelfJumpNeverHalts : let s : State := { start cfg16 [(27, 3)] with mem := [(3, 0x001B001B)] }
    s.Inv ∧ s.status = .running ∧ s.pcInRange = true ∧
      s.word s.pc.toInt.toNat = encode (.movReg s.cfg.pcIdx s.cfg.pcIdx) :=
  ⟨fresh_inv (by decide) (by decide) (by decide) (by decide) (by decide), by decide, by decide, by decide⟩

/-- The ends of the immediate's range, into a plain register and into the counter. -/
theorem witness_ImmediateMoveStores : (start cfg16 []).Inv ∧ (Instr.movImm 0 16).wellFormed = true ∧
    (Instr.movImm 32767 27).wellFormed = true ∧ (start cfg16 []).cfg.WriteOnlyStores 16 ∧
    (start cfg16 []).cfg.WriteOnlyStores 27 :=
  ⟨start16_inv _, by decide, by decide, by unfold Config.WriteOnlyStores; decide, by unfold Config.WriteOnlyStores; decide⟩

theorem witness_RegisterMoveStores : (start cfg16 []).Inv ∧ (start cfg16 []).cfg.ReadOnlyReads 35 ∧
    (start cfg16 []).cfg.WriteOnlyStores 35 :=
  ⟨start16_inv _, by unfold Config.ReadOnlyReads; decide, by unfold Config.WriteOnlyStores; decide⟩

/-- Targets at both ends of memory, just above it and below it. -/
theorem witness_MoveIntoTheCounterJumps :
    (start cfg16 [(16, -1)]).Inv ∧ (start cfg16 [(16, -1)]).status = .running ∧
    Moves (start cfg16 [(16, -1)]) (.movImm 0 27) 0 (start cfg16 [(16, -1)]).cfg.pcIdx (start cfg16 [(16, -1)]) ∧
    Moves (start cfg16 [(16, -1)]) (.movImm 15 27) 15 (start cfg16 [(16, -1)]).cfg.pcIdx (start cfg16 [(16, -1)]) ∧
    Moves (start cfg16 [(16, -1)]) (.movImm 16 27) 16 (start cfg16 [(16, -1)]).cfg.pcIdx (start cfg16 [(16, -1)]) ∧
    Moves (start cfg16 [(16, -1)]) (.movReg 16 27) ((start cfg16 [(16, -1)]).reg 16)
      (start cfg16 [(16, -1)]).cfg.pcIdx (start cfg16 [(16, -1)]) ∧
    ((start cfg16 [(16, -1)]).reg 16).toInt < 0 ∧ (start cfg16 [(16, -1)]).cfg.cap = 16 :=
  ⟨start16_inv _, start_running _ _, moves_imm _ (by decide), moves_imm _ (by decide), moves_imm _ (by decide),
    moves_reg16 _ (by decide), by decide, by decide⟩

/-- The first index that does not exist, as source and as destination. -/
theorem witness_UnknownRegisterFaults : (start cfg16 []).cfg.nreg ≤ 36 ∧ (start cfg16 []).Inv ∧
    Moves (start cfg16 []) (.movImm 5 36) 5 36 (start cfg16 []) :=
  ⟨by decide, start16_inv _, moves_imm _ (by decide)⟩

theorem witness_NarrowingIsExactOrModular : (-2 ^ 63 : Int) ≤ 2 ^ 63 - 1 ∧
    ¬ ((-2 ^ 63 : Int) ≤ 2 ^ 63 ∧ (2 ^ 63 : Int) ≤ 2 ^ 63 - 1) := by decide

/-- The hypotheses of one clause of `NarrowedRule`: whether the exact result fits, under which policy. -/
def MeetsNarrowed (s : State) (a b : Role) (f : Int → Int → Int) (n d : Nat) (fits : Bool) (policy : OverflowPolicy) :
    Prop :=
  let t := written s s d (BitVec.ofNat 64 n)
  let k := f (t.role a).toInt (t.role b).toInt
  s.Inv ∧ Moves s (.movImm n d) (BitVec.ofNat 64 n) d s ∧ Fires s a b d ∧
    decide (-2 ^ 63 ≤ k ∧ k ≤ 2 ^ 63 - 1) = fits ∧ s.cfg.arithOverflow = policy

/-- The largest sum that fits, and the next one, under each policy; a write of the first addend. -/
theorem witness_AddStoresTheSum :
    MeetsNarrowed (start cfg16 [(0, 2 ^ 63 - 1)]) .addA .addB (fun a b => a + b) 0 1 true .fault ∧
    MeetsNarrowed (start cfg16 [(0, 2 ^ 63 - 1)]) .addA .addB (fun a b => a + b) 1 1 false .fault ∧
    MeetsNarrowed (start cfgWrap [(1, 2 ^ 63 - 1)]) .addA .addB (fun a b => a + b) 1 0 false .wrap :=
  ⟨⟨start16_inv _, moves_imm _ (by decide), by unfold Fires; decide, by decide, by decide⟩,
    ⟨start16_inv _, moves_imm _ (by decide), by unfold Fires; decide, by decide, by decide⟩,
    ⟨start_inv cfgWrap_conforming _, moves_imm _ (by decide), by unfold Fires; decide, by decide, by decide⟩⟩

/-- The least difference that fits, and the next one below, under each policy. -/
theorem witness_SubStoresTheDifference :
    MeetsNarrowed (start cfg16 [(3, -2 ^ 63)]) .subA .subB (fun a b => a - b) 0 4 true .fault ∧
    MeetsNarrowed (start cfg16 [(3, -2 ^ 63)]) .subA .subB (fun a b => a - b) 1 4 false .fault ∧
    MeetsNarrowed (start cfgWrap [(3, -2 ^ 63)]) .subA .subB (fun a b => a - b) 1 4 false .wrap :=
  ⟨⟨start16_inv _, moves_imm _ (by decide), by unfold Fires; decide, by decide, by decide⟩,
    ⟨start16_inv _, moves_imm _ (by decide), by unfold Fires; decide, by decide, by decide⟩,
    ⟨start_inv cfgWrap_conforming _, moves_imm _ (by decide), by unfold Fires; decide, by decide, by decide⟩⟩

/-- `-2^63 * 1` fits and `-2^63 * 2` does not. -/
theorem witness_MulStoresTheProduct :
    MeetsNarrowed (start cfg16 [(6, -2 ^ 63)]) .mulA .mulB (fun a b => a * b) 1 7 true .fault ∧
    MeetsNarrowed (start cfg16 [(6, -2 ^ 63)]) .mulA .mulB (fun a b => a * b) 2 7 false .fault ∧
    MeetsNarrowed (start cfgWrap [(6, -2 ^ 63)]) .mulA .mulB (fun a b => a * b) 2 7 false .wrap :=
  ⟨⟨start16_inv _, moves_imm _ (by decide), by unfold Fires; decide, by decide, by decide⟩,
    ⟨start16_inv _, moves_imm _ (by decide), by unfold Fires; decide, by decide, by decide⟩,
    ⟨start_inv cfgWrap_conforming _, moves_imm _ (by decide), by unfold Fires; decide, by decide, by decide⟩⟩

/-- Vectors Q10, Q14 and Q11: `-2^63` divided by 0, by -1 and by 1. -/
theorem witness_DivStoresQuotientAndRemainder :
    let s := start cfg16 [(9, -2 ^ 63), (16, -1)]
    s.Inv ∧ Fires s .divN .divD 10 ∧ (s.role .divN).toInt = -2 ^ 63 ∧
    (Moves s (.movImm 0 10) 0 10 s ∧ ((written s s 10 0).role .divD).toInt = 0) ∧
    (Moves s (.movReg 16 10) (s.reg 16) 10 s ∧ ((written s s 10 (s.reg 16)).role .divD).toInt = -1) ∧
    (Moves s (.movImm 1 10) 1 10 s ∧ ((written s s 10 1).role .divD).toInt = 1) :=
  ⟨start16_inv _, by unfold Fires; decide, by decide, ⟨moves_imm _ (by decide), by decide⟩,
    ⟨moves_reg16 _ (by decide), by decide⟩, moves_imm _ (by decide), by decide⟩

theorem witness_LessThanStoresOneOrZero :
    ((start cfg16 [(13, -2 ^ 63)]).Inv ∧
      Moves (start cfg16 [(13, -2 ^ 63)]) (.movImm 0 14) 0 14 (start cfg16 [(13, -2 ^ 63)]) ∧
      Fires (start cfg16 [(13, -2 ^ 63)]) .ltA .ltB 14) ∧
    ((start cfgSecond []).Inv ∧ Moves (start cfgSecond []) (.movImm 0 14) 0 14 (start cfgSecond []) ∧
      Fires (start cfgSecond []) .ltA .ltB 14) :=
  ⟨⟨start16_inv _, moves_imm _ (by decide), by unfold Fires; decide⟩,
    ⟨start_inv cfgSecond_conforming _, moves_imm _ (by decide), by unfold Fires; decide⟩⟩

theorem witness_WrapAgreesWhereNothingOverflows : (start cfg16 [(27, 15)]).cfg.arithOverflow = .fault ∧
    (match run 2 (start cfg16 [(27, 15)]) with
      | .next t => decide (t.status = .halted 1 16)
      | .fault _ => false
      | .refused _ => false) = true := by decide

/-- Vector M14 moves once and halts, and no fault occurs. -/
theorem witness_FaultFreeStaysFaultFreeUnderWrap :
    (start cfg16 [(27, 15)]).cfg.arithOverflow = .fault ∧ FaultFree (start cfg16 [(27, 15)]) := by
  refine ⟨by decide, fun t ht => ?_⟩
  have h1 : step (start cfg16 [(27, 15)]) = .next (start cfg16 [(27, 16)]).countTick := rfl
  have h2 : step (start cfg16 [(27, 16)]).countTick = .next (start cfg16 [(27, 16)]).countTick.halt := rfl
  have h : t = start cfg16 [(27, 15)] ∨ t = (start cfg16 [(27, 16)]).countTick ∨
      t = (start cfg16 [(27, 16)]).countTick.halt := by
    refine reaches_induction (P := fun u => u = start cfg16 [(27, 15)] ∨ u = (start cfg16 [(27, 16)]).countTick ∨
      u = (start cfg16 [(27, 16)]).countTick.halt) ht (.inl rfl) ?_
    rintro u u' (rfl | rfl | rfl) hs
    · rw [h1] at hs
      exact .inr (.inl (Host.Outcome.next.inj hs).symm)
    · rw [h2] at hs
      exact .inr (.inr (Host.Outcome.next.inj hs).symm)
    · exact absurd (step_cases hs).1 (by simp)
  rcases h with rfl | rfl | rfl <;> intro c hc
  · exact absurd (hc.symm.trans (start_running _ _)) (by simp)
  · exact absurd (hc.symm.trans (start_running cfg16 [(27, 16)])) (by simp)
  · exact absurd hc (by simp)

theorem witness_SumIsReadableAfterBothAddends :
    let s := start cfg16 []
    s.Inv ∧ s.status = .running ∧ 32767 ≤ 32767 ∧
      (match exec (.movImm 32767 (s.cfg.index .addA)) s with
        | .next t => decide (t.status = .running)
        | .fault _ => false
        | .refused _ => false) = true :=
  ⟨start16_inv _, start_running _ _, by decide, by decide⟩

/-- Vectors E2 and E4, with a destination that only stores. -/
theorem witness_SelectIsEvaluatedOnRead :
    ((start cfg16 [(21, 5), (22, 6)]).Inv ∧ (start cfg16 [(21, 5), (22, 6)]).role .selCond = 0) ∧
    ((start cfg16 [(20, -2 ^ 63), (21, 5), (22, 6)]).Inv ∧
      (start cfg16 [(20, -2 ^ 63), (21, 5), (22, 6)]).role .selCond ≠ 0) ∧
    (start cfg16 [(21, 5), (22, 6)]).cfg.WriteOnlyStores 16 :=
  ⟨⟨start16_inv _, by decide⟩, ⟨start16_inv _, by decide⟩, by unfold Config.WriteOnlyStores; decide⟩

theorem witness_StoredPortValuesAreNeverObserved : (start cfg16 []).Inv ∧
    Role.secNl ∈ [Role.selR, .conIn, .secNl] ∧ ∃ t, exec (.movReg 28 16) (start cfg16 []) = .next t :=
  ⟨start16_inv _, by decide, exec_next _ _⟩

/-- The clear code, the largest character, and the values just outside each range of characters (O2, O4 to O7). -/
theorem witness_ConsoleOutputEmits :
    Moves (start cfg16 []) (.movImm 256 24) 256 ((start cfg16 []).cfg.index .conOut) (start cfg16 []) ∧
    (256 : I64) = (start cfg16 []).cfg.clearCode ∧
    (∀ n ∈ [(0x10FFFF : Int), 0x110000, -1, 0xD800], (start cfg16 [(16, n)]).Inv ∧
      Moves (start cfg16 [(16, n)]) (.movReg 16 24) ((start cfg16 [(16, n)]).reg 16)
        ((start cfg16 [(16, n)]).cfg.index .conOut) (start cfg16 [(16, n)])) ∧
    (IsChar 0x10FFFF ∧ (0x10FFFF : I64) ≠ 256) ∧ (¬ IsChar 0x110000 ∧ (0x110000 : I64) ≠ 256) ∧
    (¬ IsChar (-1) ∧ (-1 : I64) ≠ 256) ∧ ¬ IsChar 0xD800 :=
  ⟨moves_imm _ (by decide), by decide, fun n _ => ⟨start16_inv _, by
      have h : (start cfg16 [(16, n)]).cfg.index .conOut = 24 := by rw [(start_like _ _).1]; decide
      rw [h]; exact moves_reg16 _ (by decide)⟩,
    by unfold IsChar scalarValue; decide, by unfold IsChar scalarValue; decide, by unfold IsChar scalarValue; decide,
    by unfold IsChar scalarValue; decide⟩

/-- An answer that is written down, no data, and a poll that the free value answers. -/
theorem witness_ConsoleInputPolls :
    (State.Inv { start cfg16 [] with inputs := [some 0xFF] } ∧
      ({ start cfg16 [] with inputs := [some 0xFF] } : State).inputs = some 0xFF :: []) ∧
    State.Inv { start cfg16 [] with inputs := [none] } ∧
    ((start cfg16 []).Inv ∧ (start cfg16 []).inputs = []) :=
  ⟨⟨fresh_inv (by decide) (by decide) (by decide) (by decide) (by decide), rfl⟩,
    fresh_inv (by decide) (by decide) (by decide) (by decide) (by decide), start16_inv _, by decide⟩

/-- The code 256, and -1 (SO2, SO3). -/
theorem witness_SecondaryOutputEmits :
    (start cfg16 []).Inv ∧
    Moves (start cfg16 []) (.movImm 256 26) 256 ((start cfg16 []).cfg.index .secOut) (start cfg16 []) ∧ IsChar 256 ∧
    (start cfg16 [(16, -1)]).Inv ∧ ¬ IsChar ((start cfg16 [(16, -1)]).reg 16) ∧
    Moves (start cfg16 [(16, -1)]) (.movReg 16 26) ((start cfg16 [(16, -1)]).reg 16)
      ((start cfg16 [(16, -1)]).cfg.index .secOut) (start cfg16 [(16, -1)]) :=
  ⟨start16_inv _, moves_imm _ (by decide), by unfold IsChar scalarValue; decide, start16_inv _,
    by unfold IsChar scalarValue; decide, moves_reg16 _ (by decide)⟩

theorem witness_SecondaryNewlineYieldsTheCode : (start cfg16 []).Inv ∧ (start cfg16 []).cfg.WriteOnlyStores 16 :=
  ⟨start16_inv _, by unfold Config.WriteOnlyStores; decide⟩

/-- The last pair of sixteen words. -/
theorem witness_PairIsHighWordFirst :
    (start cfg16 []).mem.wf (start cfg16 []).cfg.memInit (start cfg16 []).cfg.cap = true ∧
    2 * 7 + 1 < (start cfg16 []).cfg.cap := by decide

/-- The last pair, the pair after it (K2, K4), and a negative address. -/
theorem witness_CommitStoresTheDataRegister :
    (∀ n ∈ [(7 : Int), 8, -1], (start cfg16 [(30, n)]).Inv ∧
      Moves (start cfg16 [(30, n)]) (.movImm 0 31) 0 31 (start cfg16 [(30, n)])) ∧
    cfg16.index .memCommit = 31 ∧
    (((written (start cfg16 [(30, 7)]) (start cfg16 [(30, 7)]) 31 0).role .memAddr).toInt = ((7 : Nat) : Int) ∧
      2 * ((7 : Nat) : Int) + 1 ≤ (cfg16.cap : Int) - 1) ∧
    ¬ (2 * ((written (start cfg16 [(30, 8)]) (start cfg16 [(30, 8)]) 31 0).role .memAddr).toInt + 1 ≤
      (cfg16.cap : Int) - 1) ∧
    ¬ 0 ≤ ((written (start cfg16 [(30, -1)]) (start cfg16 [(30, -1)]) 31 0).role .memAddr).toInt :=
  ⟨fun _ _ => ⟨start16_inv _, moves_imm _ (by decide)⟩, by decide, by decide, by decide, by decide⟩

/-- The last pair, the pair after it and a negative address (K5). -/
theorem witness_DataReadLoadsThePair :
    (∀ n ∈ [(7 : Int), 8, -1], (start cfg16 [(30, n)]).Inv) ∧ (start cfg16 []).cfg.WriteOnlyStores 16 ∧
    ((start cfg16 [(30, 7)]).role .memAddr).toInt = ((7 : Nat) : Int) ∧
    2 * ((7 : Nat) : Int) + 1 ≤ ((start cfg16 [(30, 7)]).cfg.cap : Int) - 1 ∧
    ¬ (2 * ((start cfg16 [(30, 8)]).role .memAddr).toInt + 1 ≤ ((start cfg16 [(30, 8)]).cfg.cap : Int) - 1) ∧
    ¬ 0 ≤ ((start cfg16 [(30, -1)]).role .memAddr).toInt :=
  ⟨fun _ _ => start16_inv _, by unfold Config.WriteOnlyStores; decide, by decide, by decide, by decide, by decide⟩

/-- The state after vector K2's store is itself a later state with the words still there. -/
theorem witness_StoreThenLoadGivesTheValue :
    let s := start cfg16 [(30, 7), (29, -1)]
    let t := ((written s s 31 0).storeDouble 7 ((written s s 31 0).role .memData)).countTick
    s.Inv ∧ Moves s (.movImm 0 31) 0 (s.cfg.index .memCommit) s ∧
    ((written s s (s.cfg.index .memCommit) 0).role .memAddr).toInt = ((7 : Nat) : Int) ∧
    2 * ((7 : Nat) : Int) + 1 ≤ (s.cfg.cap : Int) - 1 ∧ exec (.movImm 0 31) s = .next t ∧
    t.Inv ∧ t.cfg = s.cfg ∧ (t.role .memAddr).toInt = ((7 : Nat) : Int) :=
  ⟨start16_inv _, moves_imm _ (by decide), by decide, by decide, rfl,
    fresh_inv (by decide) (by decide) (by decide) (by decide) (by decide), by decide, by decide⟩

/-- The next instruction is the pair's high word, or its low word. -/
theorem witness_StoreOverTheNextWordIsRun :
    (∀ n ∈ [(11 : Int), 12], (start cfg16 [(27, n), (30, 6)]).Inv ∧
      (start cfg16 [(27, n), (30, 6)]).status = .running ∧
      Moves (start cfg16 [(27, n), (30, 6)]) (.movImm 0 31) 0 31 (start cfg16 [(27, n), (30, 6)])) ∧
    cfg16.index .memCommit = 31 ∧
    (let s := start cfg16 [(27, 11), (30, 6)];
      s.pcInRange = true ∧ ((written s s 31 0).role .memAddr).toInt = ((6 : Nat) : Int) ∧
        s.pc.toInt + 1 = 2 * ((6 : Nat) : Int)) ∧
    (let s := start cfg16 [(27, 12), (30, 6)];
      s.pcInRange = true ∧ ((written s s 31 0).role .memAddr).toInt = ((6 : Nat) : Int) ∧
        s.pc.toInt + 1 = 2 * ((6 : Nat) : Int) + 1) ∧
    2 * ((6 : Nat) : Int) + 1 ≤ (cfg16.cap : Int) - 1 :=
  ⟨fun _ _ => ⟨start16_inv _, start_running _ _, moves_imm _ (by decide)⟩, by decide, by decide, by decide, by decide⟩

/-- Vector K13, at the last pair. -/
theorem witness_AliasedCommitStoresTheOperand :
    let s := start cfgAlias [(30, 7)]
    s.Inv ∧ s.cfg.index .memCommit = s.cfg.index .memData ∧ Moves s (.movImm 77 29) 77 (s.cfg.index .memData) s ∧
    ((written s s (s.cfg.index .memData) 77).role .memAddr).toInt = ((7 : Nat) : Int) ∧
    2 * ((7 : Nat) : Int) + 1 ≤ (s.cfg.cap : Int) - 1 :=
  ⟨start_inv cfgAlias_conforming _, by decide, moves_imm _ (by decide), by decide, by decide⟩

/-- A register that the add trigger's MOVE may not change. -/
theorem witness_OtherRegistersAreUnchanged : (start cfg16 []).Inv ∧
    (∃ t, exec (.movImm 4 1) (start cfg16 []) = .next t) ∧ ¬ MayChange (start cfg16 []).cfg (.movImm 4 1) 0 := by
  refine ⟨start16_inv _, exec_next _ _, ?_⟩
  rw [(start_like cfg16 []).1]
  rintro (h | h | ⟨r, hr, q, hq, h⟩ | ⟨r, -, ⟨d, hd⟩, -⟩)
  · exact absurd h (by decide)
  · exact absurd h (by decide)
  · cases r <;> first | exact absurd hr (by decide) | (revert hq h; cases q <;> decide)
  · cases hd

/-- Another destination; a load at an address that faults; a commit at the last pair and after it. -/
theorem witness_OtherWordsAreUnchanged :
    (∀ i s, ∃ t, exec i s = .next t) ∧ (∀ n ∈ [(7 : Int), 8], (start cfg16 [(30, n)]).Inv) ∧
    (Instr.movImm 0 16).dst ≠ cfg16.index .memCommit ∧
    operandOf (.movReg 29 16) (start cfg16 [(30, 8)]) = .raised (.badMemAddress 8) (start cfg16 [(30, 8)]) ∧
    operandOf (.movImm 0 31) (start cfg16 [(30, 7)]) = .done 0 (start cfg16 [(30, 7)]) ∧
    pairIndex cfg16.cap ((written (start cfg16 [(30, 7)]) (start cfg16 [(30, 7)]) 31 0).role .memAddr) = some 7 ∧
    pairIndex cfg16.cap ((written (start cfg16 [(30, 8)]) (start cfg16 [(30, 8)]) 31 0).role .memAddr) = none :=
  ⟨exec_next, fun _ _ => start16_inv _, by decide, by decide, by decide, by decide, by decide⟩

theorem witness_PollsHappenOnlyOnConsoleReads : (start cfg16 []).Inv ∧ (∀ i, ∃ t, exec i (start cfg16 []) = .next t) ∧
    SourceIs (start cfg16 []).cfg (.movReg 25 16) .conIn ∧ ¬ SourceIs (start cfg16 []).cfg (.movImm 7 25) .conIn :=
  ⟨start16_inv _, fun _ => exec_next _ _, ⟨16, by rw [(start_like cfg16 []).1]; rfl⟩, fun ⟨_, h⟩ => nomatch h⟩

theorem witness_OutputHappensOnlyOnPortWrites : (start cfg16 []).Inv ∧ (∀ i, ∃ t, exec i (start cfg16 []) = .next t) ∧
    (Instr.movReg 25 16).dst ≠ (start cfg16 []).cfg.index .conOut ∧
    (Instr.movReg 25 16).dst ≠ (start cfg16 []).cfg.index .secOut :=
  ⟨start16_inv _, fun _ => exec_next _ _, by decide, by decide⟩

/-- A completed MOVE, one whose write faults, and one whose read faults (M2, M8, M9). -/
theorem witness_CounterAdvancesByOne : (start cfg16 []).Inv ∧ (∀ i, ∃ t, exec i (start cfg16 []) = .next t) ∧
    operandOf (.movImm 5 16) (start cfg16 []) = .done 5 (start cfg16 []) ∧
    operandOf (.movImm 5 40) (start cfg16 []) = .done 5 (start cfg16 []) ∧
    (Instr.movImm 5 16).dst ≠ (start cfg16 []).cfg.pcIdx ∧ (Instr.movImm 5 40).dst ≠ (start cfg16 []).cfg.pcIdx ∧
    operandOf (.movReg 40 16) (start cfg16 []) = .raised (.badRegister 40) (start cfg16 []) :=
  ⟨start16_inv _, fun _ => exec_next _ _, by decide, by decide, by decide, by decide, by decide⟩

theorem witness_TickCounterIsNotObservable : ∃ t, exec (.movImm 4 1) (start cfg16 []) = .next t := exec_next _ _

theorem witness_TraceIsNotObservable : ∃ t, exec (.movImm 65 24) (start cfg16 []) = .next t := exec_next _ _

theorem witness_AtMostOneTriggerPerPhase : cfgAlias.conforming = true ∧ cfgAlias.readTriggers 29 ≠ [] ∧
    cfgAlias.writeTriggers 29 ≠ [] := ⟨cfgAlias_conforming, by decide, by decide⟩

/-- The largest capacity of each expansion, and the ends of the range of the old `MUL_B`. -/
theorem witness_HaltExpansionsHalt :
    ((start cfg16 []).Inv ∧ (start cfg16 []).status = .running ∧ (start cfg16 []).cfg.cap ≤ 32767) ∧
    ((start Config.default [(7, -2 ^ 53)]).Inv ∧ (start Config.default [(7, -2 ^ 53)]).status = .running ∧
      (start Config.default [(7, -2 ^ 53)]).cfg.cap ≤ 2 ^ 20 ∧
      -2 ^ 53 ≤ ((start Config.default [(7, -2 ^ 53)]).role .mulB).toInt ∧
      ((start Config.default [(7, -2 ^ 53)]).role .mulB).toInt < 2 ^ 53) ∧
    ((start Config.default [(7, 2 ^ 53 - 1)]).role .mulB).toInt < 2 ^ 53 :=
  ⟨⟨start16_inv _, start_running _ _, by decide⟩,
    ⟨start_inv (by decide) _, start_running _ _, by decide, by decide, by decide⟩, by decide⟩

/-- A zero and a nonzero condition, at the largest targets. -/
theorem witness_BranchExpansionSelectsTheTarget : (start cfg16 [(17, -1)]).Inv ∧
    (start cfg16 [(17, -1)]).status = .running ∧ (start cfg16 [(17, -1)]).cfg.ReadOnlyReads 16 ∧
    (start cfg16 [(17, -1)]).cfg.ReadOnlyReads 17 ∧ 32767 ≤ 32767 ∧ (start cfg16 [(17, -1)]).reg 16 = 0 ∧
    (start cfg16 [(17, -1)]).reg 17 ≠ 0 :=
  ⟨start16_inv _, start_running _ _, by unfold Config.ReadOnlyReads; decide, by unfold Config.ReadOnlyReads; decide,
    by decide, by decide, by decide⟩

theorem witness_LoadAndStoreExpansions : (start cfg16 []).Inv ∧ (start cfg16 []).status = .running ∧
    (start cfg16 []).cfg.WriteOnlyStores 16 ∧ (start cfg16 []).cfg.ReadOnlyReads 16 ∧ 7 ≤ 32767 ∧
    2 * 7 + 1 < (start cfg16 []).cfg.cap ∧
    (start cfg16 []).cfg.index .memCommit ≠ (start cfg16 []).cfg.index .memData :=
  ⟨start16_inv _, start_running _ _, by unfold Config.WriteOnlyStores; decide, by unfold Config.ReadOnlyReads; decide,
    by decide, by decide, by decide⟩

end Sys2Proof.Tests
end

section
/-! SUPPORT. The integer a narrowed result stands for (R9). -/

namespace Sys2Proof.Machine

open Sys2Proof

/-- The signed reading of `wrap64 n` is the balanced remainder of `n` modulo 2^64. -/
theorem toInt_wrap64 (n : Int) : (wrap64 n).toInt = n.bmod (2 ^ 64) := BitVec.toInt_ofInt n

/-- The balanced remainder is the one representative in the range of an i64, `Int.bmod_eq_iff`. -/
theorem toInt_wrap64_eq_iff {n m : Int} :
    (wrap64 n).toInt = m ↔ (-2 ^ 63 ≤ m ∧ m ≤ 2 ^ 63 - 1) ∧ (m - n) % 2 ^ 64 = 0 := by
  rw [toInt_wrap64, Int.bmod_eq_iff (by decide)]
  omega

/-- An integer in the range is its own representative. -/
theorem toInt_wrap64_of_range {n : Int} (h : -2 ^ 63 ≤ n ∧ n ≤ 2 ^ 63 - 1) : (wrap64 n).toInt = n :=
  toInt_wrap64_eq_iff.mpr ⟨h, by simp⟩

/-- Settles O26: exactness is the case `m = n` of the characterisation. -/
theorem narrowingIsExactOrModular : Obligations.NarrowingIsExactOrModular :=
  fun _ => ⟨toInt_wrap64_of_range, fun _ => toInt_wrap64_eq_iff⟩

end Sys2Proof.Machine
end

section
/-! SUPPORT. What no instruction can observe (R43, R46, R235): every meaning commutes with putting an earlier past, a
number of ticks and a piece of I/O trace, before the state's own. -/

namespace Sys2Proof.Machine

open Sys2Proof

/-- The result with its state replaced; the value and the fault stay. -/
def Run.mapState {α : Type} (f : State → State) : Run α → Run α
  | .done a s => .done a (f s)
  | .raised c s => .raised c (f s)

@[simp] theorem Run.mapState_done {α : Type} (f : State → State) (a : α) (s : State) :
    (Run.done a s).mapState f = .done a (f s) := rfl

@[simp] theorem Run.mapState_raised {α : Type} (f : State → State) (c : FaultCause) (s : State) :
    (Run.raised c s : Run α).mapState f = .raised c (f s) := rfl

/-- A change of the state passes through a sequence whose second part it passes through. -/
theorem Run.mapState_andThen {α β : Type} {f : State → State} {g : α → State → Run β}
    (hg : ∀ a t, g a (f t) = (g a t).mapState f) (r : Run α) :
    (r.mapState f).andThen g = (r.andThen g).mapState f := by
  cases r with
  | done a t => exact hg a t
  | raised c t => rfl

/-- The state whose run began `n` ticks and the events `tr` earlier. -/
def State.withPast (n : Nat) (tr : List Event) (s : State) : State :=
  { s with ticks := n + s.ticks, trace := tr ++ s.trace }

section
variable (n : Nat) (tr : List Event) (s : State)

@[simp] theorem State.withPast_cfg : (s.withPast n tr).cfg = s.cfg := rfl
@[simp] theorem State.withPast_role (r : Role) : (s.withPast n tr).role r = s.role r := rfl
@[simp] theorem State.withPast_pc : (s.withPast n tr).pc = s.pc := rfl
@[simp] theorem State.withPast_nextAnswer : (s.withPast n tr).nextAnswer = s.nextAnswer := rfl

theorem State.setReg_withPast (i : Nat) (v : I64) :
    (s.withPast n tr).setReg i v = (s.setReg i v).withPast n tr := rfl

theorem State.emit_withPast (e : Output) : (s.withPast n tr).emit e = (s.emit e).withPast n tr := by
  simp [State.emit, State.withPast]

theorem State.drawAnswer_withPast : (s.withPast n tr).drawAnswer = s.drawAnswer.withPast n tr := by
  obtain ⟨_, _, _, _, _, _, inputs, _⟩ := s
  cases inputs <;> rfl

theorem State.poll_withPast : (s.withPast n tr).poll = s.poll.withPast n tr := by
  rw [State.poll, State.drawAnswer_withPast, State.withPast_nextAnswer]
  simp [State.poll, State.withPast]

/-! ### The operations of the catalogue -/

theorem narrowedInto_withPast (op : ArithOp) (a b r : Role) :
    narrowedInto op a b r (s.withPast n tr) = (narrowedInto op a b r s).mapState (State.withPast n tr) := by
  simp only [narrowedInto, State.withPast_cfg, State.withPast_role]
  split <;> rfl

theorem opDiv_withPast : opDiv (s.withPast n tr) = (opDiv s).mapState (State.withPast n tr) := by
  simp only [opDiv, State.withPast_role]
  split <;> rfl

theorem emitChar_withPast (port : Port) (v : I64) :
    emitChar port v (s.withPast n tr) = (emitChar port v s).mapState (State.withPast n tr) := by
  simp only [emitChar, State.emit_withPast]
  split <;> rfl

theorem opConOut_withPast : opConOut (s.withPast n tr) = (opConOut s).mapState (State.withPast n tr) := by
  simp only [opConOut, State.withPast_cfg, State.withPast_role, State.emit_withPast, emitChar_withPast]
  split <;> rfl

theorem opConIn_withPast : opConIn (s.withPast n tr) = (opConIn s).mapState (State.withPast n tr) := by
  rw [opConIn, State.poll_withPast]
  rfl

theorem checkedPair_withPast : checkedPair (s.withPast n tr) = checkedPair s := rfl

theorem opMemStore_withPast : opMemStore (s.withPast n tr) = (opMemStore s).mapState (State.withPast n tr) := by
  simp only [opMemStore, checkedPair_withPast]
  split <;> rfl

theorem opMemLoad_withPast : opMemLoad (s.withPast n tr) = (opMemLoad s).mapState (State.withPast n tr) := by
  simp only [opMemLoad, checkedPair_withPast]
  split <;> rfl

theorem runTrigger_withPast (ph : Phase) (op : Op) :
    runTrigger ph op (s.withPast n tr) = (runTrigger ph op s).mapState (State.withPast n tr) := by
  cases op with
  | add | sub | mul => exact narrowedInto_withPast n tr s _ _ _ _
  | div => exact opDiv_withPast n tr s
  | conOut => exact opConOut_withPast n tr s
  | conIn => exact opConIn_withPast n tr s
  | secOut => exact emitChar_withPast n tr s _ _
  | memStore => exact opMemStore_withPast n tr s
  | memLoad => exact opMemLoad_withPast n tr s
  | lt | sel | secNl => rfl

/-! ### The tick -/

theorem runTriggers_withPast (ph : Phase) (ops : List Op) :
    runTriggers ph ops (s.withPast n tr) = (runTriggers ph ops s).mapState (State.withPast n tr) := by
  induction ops generalizing s with
  | nil => rfl
  | cons op rest ih =>
    rw [runTriggers, runTrigger_withPast]
    exact Run.mapState_andThen (fun _ t => ih t) _

theorem regGet_withPast (i : Nat) :
    regGet i (s.withPast n tr) = (regGet i s).mapState (State.withPast n tr) := by
  simp only [regGet, State.withPast_cfg, runTriggers_withPast]
  split
  · rfl
  · exact Run.mapState_andThen (fun _ _ => rfl) _

theorem regSet_withPast (i : Nat) (v : I64) :
    regSet i v (s.withPast n tr) = (regSet i v s).mapState (State.withPast n tr) := by
  simp only [regSet, State.withPast_cfg, State.setReg_withPast, runTriggers_withPast]
  split <;> rfl

theorem operandOf_withPast (i : Instr) :
    operandOf i (s.withPast n tr) = (operandOf i s).mapState (State.withPast n tr) := by
  cases i with
  | movImm => rfl
  | movReg r => exact regGet_withPast n tr s r

variable {n tr s}

/-- An instruction neither reads the past nor rewrites it: what it counts and emits comes after. -/
theorem exec_withPast {t : State} {i : Instr} (h : exec i s = .next t) :
    exec i (s.withPast n tr) = .next (t.withPast n tr) := by
  have hrun := Run.mapState_andThen (f := State.withPast n tr) (g := fun v u => deliver s.pc i.dst v u)
    (fun v u => regSet_withPast n tr (u.advance s.pc) i.dst v) (operandOf i s)
  rw [exec_eq] at h ⊢
  rw [operandOf_withPast, State.withPast_pc, hrun]
  cases hr : (operandOf i s).andThen fun v u => deliver s.pc i.dst v u with
  | done _ u =>
    rw [hr] at h
    obtain rfl := Host.Outcome.next.inj h
    rfl
  | raised c u =>
    rw [hr] at h
    obtain rfl := Host.Outcome.next.inj h
    rfl

end

/-- The state as it would be with no past: nothing counted and nothing traced. -/
def State.fresh (s : State) : State := { s with ticks := 0, trace := [] }

theorem State.fresh_withPast (s : State) (n : Nat) (tr : List Event) :
    s.fresh.withPast n tr = { s with ticks := n, trace := tr } := by
  simp [State.fresh, State.withPast]

/-- An instruction's next state is that of the state without a past, with the past put before it. -/
theorem exec_from_fresh {s t : State} {i : Instr} (h : exec i s = .next t) :
    ∃ u, exec i s.fresh = .next u ∧ t = u.withPast s.ticks s.trace := by
  obtain ⟨u, hu⟩ := exec_next i s.fresh
  have hs : exec i s = .next (u.withPast s.ticks s.trace) := by
    rw [← exec_withPast hu, State.fresh_withPast]
  exact ⟨u, hu, Host.Outcome.next.inj (h.symm.trans hs)⟩

/-- With any other past, an instruction has the same next state but for the past. -/
theorem exec_any_past {s u : State} {i : Instr} (h : exec i s.fresh = .next u) (n : Nat) (tr : List Event) :
    exec i { s with ticks := n, trace := tr } = .next (u.withPast n tr) := by
  rw [← State.fresh_withPast]
  exact exec_withPast h

/-- Settles O52: the next state is that of a state with no past, counted on from the old count. -/
theorem tickCounterIsNotObservable : Obligations.TickCounterIsNotObservable := by
  intro s t i n h
  obtain ⟨u, hu, rfl⟩ := exec_from_fresh h
  have hgrown : n + ((u.withPast s.ticks s.trace).ticks - s.ticks) = n + u.ticks := by simp [State.withPast]
  rw [hgrown]
  exact exec_any_past hu n s.trace

/-- Settles O53: the events added are those that a state with no past adds. -/
theorem traceIsNotObservable : Obligations.TraceIsNotObservable := by
  intro s t i tr h
  obtain ⟨u, hu, rfl⟩ := exec_from_fresh h
  exact ⟨u.trace, rfl, exec_any_past hu s.ticks tr⟩

end Sys2Proof.Machine
end

section
/-! SUPPORT. The ended run (R44), the blank machine (R49, R245) and what the loader leaves in memory (R77). -/

namespace Sys2Proof.Machine

open Sys2Proof

/-! ### The end of a run (R44) -/

/-- Settles O14: a step that answers a next state started in a running one. -/
theorem noStepLeavesAnEndedRun : Obligations.NoStepLeavesAnEndedRun := by
  refine ⟨fun x => ?_, fun s t hs h => hs (step_cases h).1⟩
  cases x with
  | running => exact .inl rfl
  | halted n p => exact .inr (.inl ⟨n, p, rfl⟩)
  | faulted c => exact .inr (.inr ⟨c, rfl⟩)

/-! ### The blank machine (R49, R245) -/

theorem State.blank_inv {cfg : Config} (h : cfg.conforming = true) : (State.blank cfg).Inv where
  conforming := h
  buffer := by simp [State.blank]
  memory := rfl
  trace := by simp [State.blank]
  halt := by simp [State.blank]
  fault := by simp [State.blank]

/-- Settles O10: reset is the blank machine of the default configuration, which conforms. -/
theorem resetMeetsTheInvariant : Obligations.ResetMeetsTheInvariant := State.blank_inv (by decide)

theorem State.blank_reg {cfg : Config} {i : Nat} (hi : i < cfg.nreg) :
    (State.blank cfg).reg i = if i = cfg.pcIdx then cfg.entry else cfg.regInit := by
  simp [State.reg, State.blank, List.getElem_set, hi, eq_comm (a := cfg.pcIdx)]

/-! ### What the loader leaves in memory (R77) -/

theorem toNat_append_eq_add {m n : Nat} (x : BitVec m) (y : BitVec n) :
    (x ++ y).toNat = x.toNat * 2 ^ n + y.toNat := by
  rw [BitVec.toNat_append, ← Nat.shiftLeft_add_eq_or_of_lt y.isLt, Nat.shiftLeft_eq]

/-- Four bytes packed big-endian, as a number (R68). -/
theorem packWord_eq_ofNat (b0 b1 b2 b3 : Byte) : packWord b0 b1 b2 b3 =
    BitVec.ofNat 32 (b0.toNat * 2 ^ 24 + b1.toNat * 2 ^ 16 + b2.toNat * 2 ^ 8 + b3.toNat) := by
  apply BitVec.eq_of_toNat_eq
  simp only [packWord, BitVec.toNat_cast, toNat_append_eq_add, BitVec.toNat_ofNat]
  omega

theorem imageWord_zero (b0 b1 b2 b3 : Byte) (rest : List Byte) :
    imageWord (b0 :: b1 :: b2 :: b3 :: rest) 0 = packWord b0 b1 b2 b3 := (packWord_eq_ofNat b0 b1 b2 b3).symm

theorem imageWord_succ (b0 b1 b2 b3 : Byte) (rest : List Byte) (j : Nat) :
    imageWord (b0 :: b1 :: b2 :: b3 :: rest) (j + 1) = imageWord rest j := rfl

/-- The words of the image that fit below `cap` are read back, and every other word is as it was. -/
theorem Memory.read_load (d : Word) (cap : Nat) (bytes : List Byte) (base : Nat) {m : Memory}
    (h : m.wf d cap = true) (k : Nat) : (Memory.load d cap bytes base m).read d k =
      if base ≤ k ∧ k < cap ∧ k - base < bytes.length / 4 then imageWord bytes (k - base) else m.read d k := by
  fun_induction Memory.load d cap bytes base m with
  | case1 b0 b1 b2 b3 rest base m hlt ih =>
    have hlen : (b0 :: b1 :: b2 :: b3 :: rest).length / 4 = rest.length / 4 + 1 := by
      simp only [List.length_cons]
      omega
    rw [ih (Memory.wf_write d cap h hlt _), hlen]
    rcases Nat.lt_trichotomy k base with hk | rfl | hk
    · rw [if_neg (by omega), if_neg (by omega), Memory.read_write_ne d m _ (by omega)]
    · rw [if_neg (by omega), if_pos (by omega), Nat.sub_self, imageWord_zero, Memory.read_write_self d cap h]
    · have hsub : k - base = k - (base + 1) + 1 := by omega
      rw [Memory.read_write_ne d m _ (by omega), hsub, imageWord_succ]
      exact if_congr (by omega) rfl rfl
  | case2 b0 b1 b2 b3 rest base m hge => rw [if_neg (by omega)]
  | case3 bytes base m hshort =>
    have hlen : bytes.length / 4 = 0 := by
      match bytes, hshort with
      | [], _ | [_], _ | [_, _], _ | [_, _, _], _ => simp
      | b0 :: b1 :: b2 :: b3 :: rest, hshort => exact (hshort b0 b1 b2 b3 rest rfl).elim
    rw [if_neg (by omega)]

theorem State.loadProgram_word {s : State} (h : s.mem.wf s.cfg.memInit s.cfg.cap = true) (bytes : List Byte)
    (base k : Nat) : (s.loadProgram bytes base).word k =
      if base ≤ k ∧ k < s.cfg.cap ∧ k - base < bytes.length / 4 then imageWord bytes (k - base) else s.word k :=
  Memory.read_load _ _ bytes base h k

/-- Settles O8: the loader changes the blank machine's memory alone. -/
theorem initializationValues : Obligations.InitializationValues := by
  intro cfg image hc
  have hblank := State.blank_inv hc
  exact ⟨rfl, hblank.buffer, fun i hi => State.blank_reg hi,
    fun k => State.loadProgram_word hblank.memory image cfg.loadBase k, rfl, rfl, rfl⟩

end Sys2Proof.Machine
end

section
/-! SUPPORT. What an instruction and a step keep: the configuration, the size of the buffer and the history (R45, R46,
R113). -/

namespace Sys2Proof.Machine

open Sys2Proof

/-- The configuration and the size of the buffer are kept, and the trace is only extended. -/
structure KeepsHistory (s t : State) : Prop where
  cfg : t.cfg = s.cfg
  buffer : t.regs.length = s.regs.length
  trace : s.trace <+: t.trace

theorem KeepsHistory.trans {s t u : State} (h : KeepsHistory s t) (h' : KeepsHistory t u) : KeepsHistory s u :=
  ⟨h'.cfg.trans h.cfg, h'.buffer.trans h.buffer, h.trace.trans h'.trace⟩

theorem Keeps.keepsHistory {s t : State} (h : Keeps s t) : KeepsHistory s t := by
  obtain ⟨es, hes, -⟩ := h.trace
  exact ⟨h.cfg, h.buffer, es, hes.symm⟩

theorem State.setReg_keepsHistory (s : State) (i : Nat) (v : I64) : KeepsHistory s (s.setReg i v) :=
  ⟨rfl, by simp, List.prefix_rfl⟩

theorem State.advance_keepsHistory (s : State) (p : I64) : KeepsHistory s (s.advance p) :=
  State.setReg_keepsHistory s s.cfg.pcIdx (p + 1)

theorem State.takeFault_keepsHistory (s : State) (c : FaultCause) : KeepsHistory s (s.takeFault c) :=
  ⟨rfl, rfl, List.prefix_rfl⟩

theorem State.halt_keepsHistory (s : State) : KeepsHistory s s.halt := ⟨rfl, rfl, List.prefix_rfl⟩

theorem State.countTick_keepsHistory (s : State) : KeepsHistory s s.countTick := ⟨rfl, rfl, List.prefix_rfl⟩

theorem exec_keepsHistory {s t : State} (hc : s.cfg.conforming = true) {i : Instr} (h : exec i s = .next t) :
    KeepsHistory s t := by
  have delivered : ∀ {s1 : State}, Keeps s s1 → ∀ v,
      KeepsHistory s ((s1.advance s.pc).setReg i.dst v) := fun {s1} hk v =>
    (hk.keepsHistory.trans (s1.advance_keepsHistory _)).trans (State.setReg_keepsHistory _ _ v)
  rcases exec_cases hc h with ⟨c, -, rfl, -⟩ | ⟨v, s1, -, hk, -, rfl⟩ | ⟨v, s1, c, -, hk, -, -, rfl, -⟩ |
    ⟨v, s1, u, -, hk, -, -, hu, rfl⟩
  · exact s.takeFault_keepsHistory c
  · exact (hk.keepsHistory.trans (s1.advance_keepsHistory _)).trans (State.takeFault_keepsHistory _ _)
  · exact (delivered hk v).trans (State.takeFault_keepsHistory _ _)
  · exact ((delivered hk v).trans hu.keepsHistory).trans u.countTick_keepsHistory

theorem step_keepsHistory {s t : State} (h : step s = .next t) : KeepsHistory s t := by
  obtain ⟨-, hc, ⟨-, rfl⟩ | ⟨-, he⟩⟩ := step_cases h
  · exact s.halt_keepsHistory
  · exact exec_keepsHistory hc he

/-- Settles O20: the trigger tables are a function of the configuration. -/
theorem stepKeepsConfigurationAndHistory : Obligations.StepKeepsConfigurationAndHistory := by
  intro s t h
  obtain ⟨hcfg, hlen, htr⟩ := step_keepsHistory h
  exact ⟨hcfg, congrArg Config.triggerTables hcfg, hlen, htr⟩

end Sys2Proof.Machine
end

section
/-! SUPPORT. The registers an instruction may change (R32, R115, R118). -/

namespace Sys2Proof.Machine

open Sys2Proof

/-- A read-trigger stores to its own register alone (R118). -/
theorem resultRoles_of_reader {e : Role × Op} (he : e ∈ Config.readers) : resultRoles e.2 = [e.1] := by
  revert e
  decide

/-- A write-trigger stores to the results of the role that fires it (R41, R118). -/
theorem resultRoles_of_writer {t : OperandTriggers} {e : Role × Op} (he : e ∈ Config.writers t) :
    resultRoles e.2 = resultsOf e.1 := by
  cases t <;> revert e <;> decide

/-- Reading the operand changes no register but a source that its read overwrites. -/
theorem operandOf_reg {s s1 : State} (hc : s.cfg.conforming = true) {i : Instr} {v : I64}
    (h : operandOf i s = .done v s1) {j : Nat} (hj : ¬ MayChange s.cfg i j) : s1.reg j = s.reg j := by
  rcases operandOf_cases hc h with ⟨rfl, -⟩ | ⟨e, he, d, rfl, hr⟩
  · rfl
  · refine runTrigger_reg hr fun q hq hqj => hj (.inr (.inr (.inr ⟨e.1, ?_, ⟨d, rfl⟩, ?_⟩)))
    · rw [← Config.readers_roles]
      exact List.mem_map_of_mem he
    · rw [resultRoles_of_reader he, List.mem_singleton] at hq
      rwa [← hq]

/-- The advance changes the counter alone. -/
theorem State.advance_reg_ne (s : State) (p : I64) {j : Nat} (h : s.cfg.pcIdx ≠ j) : (s.advance p).reg j = s.reg j :=
  State.setReg_reg_ne s _ h

/-- A completed write changes no register but its own and the results it recomputes. -/
theorem regSet_reg {s u : State} (hc : s.cfg.conforming = true) {d : Nat} {v : I64} (h : regSet d v s = .done () u)
    {j : Nat} (hd : d ≠ j) (hj : ∀ r, s.cfg.index r = d → ∀ q ∈ resultsOf r, s.cfg.index q ≠ j) :
    u.reg j = s.reg j := by
  have hset : (s.setReg d v).reg j = s.reg j := State.setReg_reg_ne s v hd
  rcases regSet_cases hc h with ⟨rfl, -⟩ | ⟨e, he, rfl, hr⟩
  · exact hset
  · rw [runTrigger_reg hr, hset]
    rw [resultRoles_of_writer he]
    exact hj e.1 rfl

/-- Settles O47: the frames of the operand's read, the advance and the write, one after another. -/
theorem otherRegistersAreUnchanged : Obligations.OtherRegistersAreUnchanged := by
  intro s t i hinv h j hj
  have hc := hinv.conforming
  have hpc : s.cfg.pcIdx ≠ j := fun e => hj (.inl e.symm)
  have hdst : i.dst ≠ j := fun e => hj (.inr (.inl e.symm))
  have hres : ∀ r, s.cfg.index r = i.dst → ∀ q ∈ resultsOf r, s.cfg.index q ≠ j :=
    fun r hr q hq e => hj (.inr (.inr (.inl ⟨r, hr, q, hq, e⟩)))
  have advanced : ∀ {v s1}, operandOf i s = .done v s1 → Keeps s s1 → (s1.advance s.pc).reg j = s.reg j :=
    fun ho hk => (State.advance_reg_ne _ _ (by rwa [hk.cfg])).trans (operandOf_reg hc ho hj)
  rcases exec_cases hc h with ⟨c, -, rfl, -⟩ | ⟨v, s1, ho, hk, -, rfl⟩ | ⟨v, s1, c, ho, hk, -, -, rfl, -⟩ |
    ⟨v, s1, u, ho, hk, -, hu, -, rfl⟩
  · rfl
  · exact advanced ho hk
  · exact (State.setReg_reg_ne _ v hdst).trans (advanced ho hk)
  · have hcfg : (s1.advance s.pc).cfg = s.cfg := hk.cfg
    exact (regSet_reg (by rwa [hcfg]) hu hdst (by rwa [hcfg])).trans (advanced ho hk)

end Sys2Proof.Machine
end

section
/-! SUPPORT. What the configuration check asks, clause by clause (R35, R6), and the refusal of the step. -/

namespace Sys2Proof

open Sys2Proof.Machine

theorem Role.mem_ported_iff {r : Role} : r ∈ Role.ported ↔ r ≠ .pc := by
  refine ⟨?_, Role.mem_ported⟩
  rintro h rfl
  revert h
  decide

/-- The pairs of R35, clause 3, listed. -/
theorem Role.mayShare_iff {r q : Role} : r.mayShare q = true ↔
    (r, q) ∈ [(Role.memCommit, Role.memData), (.memData, .memCommit), (.conIn, .conOut), (.conOut, .conIn),
      (.secNl, .secOut), (.secOut, .secNl)] := by
  cases r <;> cases q <;> decide

namespace Config

variable {cfg : Config}

theorem rolesInRange_iff : cfg.rolesInRange = true ↔ ∀ r, cfg.index r < cfg.nreg := by
  simp [rolesInRange, Role.mem_all]

theorem pcApart_iff : cfg.pcApart = true ↔ ∀ r, r ≠ .pc → cfg.index r ≠ cfg.pcIdx := by
  simp [pcApart, Role.mem_ported_iff]

theorem rolesDistinct_iff : cfg.rolesDistinct = true ↔ ∀ r, r ≠ .pc → ∀ q, q ≠ .pc → r ≠ q →
    cfg.index r = cfg.index q → r.mayShare q = true := by
  simp only [rolesDistinct, List.all_eq_true, Role.mem_ported_iff, Bool.or_eq_true, decide_eq_true_eq]
  refine forall₄_congr fun r _ q _ => ?_
  tauto

theorem fixedIndices_iff : cfg.fixedIndices = true ↔
    cfg.index .addA = 0 ∧ cfg.index .addB = 1 ∧ cfg.index .addR = 2 ∧ cfg.index .selCond = 20 ∧
      cfg.index .selIfZero = 21 ∧ cfg.index .selIfNonzero = 22 ∧ cfg.index .selR = 23 ∧ cfg.index .pc = 27 := by
  simp only [fixedIndices, Bool.and_eq_true, decide_eq_true_eq, and_assoc, index]

theorem capInRange_iff : cfg.capInRange = true ↔ 1 ≤ cfg.cap ∧ cfg.cap ≤ 2 ^ 63 - 1 := by
  simp only [capInRange, Bool.and_eq_true, decide_eq_true_eq]

theorem widthsAsRuled_iff :
    cfg.widthsAsRuled = true ↔ cfg.wordBits = 32 ∧ cfg.regBits = 64 ∧ cfg.immBits = 15 := by
  simp only [widthsAsRuled, Bool.and_eq_true, decide_eq_true_eq, and_assoc]

/-- In a conforming configuration two roles that share an index may do so; the counter shares its own with none. -/
theorem mayShare_of_index_eq (h : cfg.conforming = true) {r q : Role} (hne : r ≠ q)
    (heq : cfg.index r = cfg.index q) : r.mayShare q = true := by
  by_contra hs
  exact index_ne h hne (by simpa using hs) heq

end Config

end Sys2Proof

namespace Sys2Proof.Machine

open Sys2Proof

/-- A running machine is refused under a configuration that does not conform. -/
theorem step_refused {s : State} (hr : s.status = .running) (hc : s.cfg.conforming = false) :
    step s = .refused .nonConformingConfig := by simp [step, hr, hc]

/-- Settles O15: the check clause by clause; the pairs with the counter are those of clause 2. -/
theorem nonConformingMapIsRefused : Obligations.NonConformingMapIsRefused := by
  refine ⟨fun cfg => ⟨fun h => ?_, ?_⟩, fun s => step_refused⟩
  · obtain ⟨hrange, hpc, -, hfixed, hcap, hwidths⟩ := Config.conforming_iff.1 h
    exact ⟨Config.rolesInRange_iff.1 hrange, Config.pcApart_iff.1 hpc,
      fun r q hne heq => Role.mayShare_iff.1 (Config.mayShare_of_index_eq h hne heq),
      Config.fixedIndices_iff.1 hfixed, Config.capInRange_iff.1 hcap, Config.widthsAsRuled_iff.1 hwidths⟩
  · rintro ⟨hrange, hpc, hshare, hfixed, hcap, hwidths⟩
    exact Config.conforming_iff.2 ⟨Config.rolesInRange_iff.2 hrange, Config.pcApart_iff.2 hpc,
      Config.rolesDistinct_iff.2 fun r _ q _ hne heq => Role.mayShare_iff.2 (hshare r q hne heq),
      Config.fixedIndices_iff.2 hfixed, Config.capInRange_iff.2 hcap, Config.widthsAsRuled_iff.2 hwidths⟩

end Sys2Proof.Machine
end

section
/-! SUPPORT. Memory as numbers (R65, R66, R68), what a MOVE to `MEM_COMMIT` does (R182), and the words an instruction
leaves alone (R118). -/

namespace Sys2Proof.Machine

open Sys2Proof

/-! ### Loading (R68, R77) -/

theorem packWord_toNat (b0 b1 b2 b3 : Byte) : (packWord b0 b1 b2 b3).toNat =
    b0.toNat * 2 ^ 24 + b1.toNat * 2 ^ 16 + b2.toNat * 2 ^ 8 + b3.toNat := by
  simp only [packWord, BitVec.toNat_cast, toNat_append_eq_add]
  omega

/-- Settles O6: the byte decoder packs the first four bytes and decodes the word. -/
theorem imageBytesPackBigEndian : Obligations.ImageBytesPackBigEndian :=
  fun b0 b1 b2 b3 _ => ⟨packWord_toNat b0 b1 b2 b3, rfl⟩

/-- Settles O7: the loader replaces memory alone, and its words are those of `State.loadProgram_word`. -/
theorem loaderWritesExactlyTheImage : Obligations.LoaderWritesExactlyTheImage :=
  fun _ bytes base h => ⟨⟨_, rfl⟩, State.loadProgram_word h bytes base⟩

/-! ### Pairs of words (R65, R66) -/

theorem State.loadDouble_toNat (s : State) (a : Nat) :
    (s.loadDouble a).toNat = (s.word (2 * a)).toNat * 2 ^ 32 + (s.word (2 * a + 1)).toNat := by
  rw [State.loadDouble, BitVec.toNat_cast, toNat_append_eq_add]

/-- The high half of a pair's value is its quotient by 2^32. -/
theorem highHalf_toNat (v : BitVec 64) : (v.extractLsb' 32 32).toNat = v.toNat / 2 ^ 32 := by
  rw [BitVec.extractLsb'_toNat, Nat.shiftRight_eq_div_pow]
  omega

/-- The low half of a pair's value is its remainder by 2^32. -/
theorem lowHalf_toNat (v : BitVec 64) : (v.extractLsb' 0 32).toNat = v.toNat % 2 ^ 32 := by
  rw [BitVec.extractLsb'_toNat, Nat.shiftRight_zero]

/-- Settles O41: the two stored words are the halves of the value. -/
theorem pairIsHighWordFirst : Obligations.PairIsHighWordFirst := by
  refine fun s a v => ⟨s.loadDouble_toNat a, fun hwf ha => ⟨?_, ?_, fun k => s.storeDouble_word_ne v, _, rfl⟩⟩
  · rw [State.storeDouble_word_high hwf, highHalf_toNat]
  · rw [State.storeDouble_word_low hwf (by omega), lowHalf_toNat]

/-! ### The state in which the write-triggers run -/

@[simp] theorem written_cfg (s s1 : State) (d : Nat) (v : I64) : (written s s1 d v).cfg = s1.cfg := rfl

/-- The counter stands one past the instruction, unless it is the destination (R201). -/
theorem written_pc {s s1 : State} (hs : s.Inv) (hk : Keeps s s1) {d : Nat} (hd : d ≠ s.cfg.pcIdx) (v : I64) :
    (written s s1 d v).pc = s.pc + 1 := by
  have hlt : s1.cfg.pcIdx < s1.regs.length := by
    rw [hk.cfg, hk.buffer, hs.buffer]
    exact Config.pcIdx_lt hs.conforming
  calc (written s s1 d v).pc = (s1.setPc (s.pc + 1)).pc := State.setReg_reg_ne _ v (by simpa [hk.cfg] using hd)
    _ = s.pc + 1 := State.setReg_reg_self s1 _ hlt

theorem written_word {s s1 : State} (hc : s.cfg.conforming = true) {i : Instr} {v : I64}
    (h : operandOf i s = .done v s1) (d k : Nat) : (written s s1 d v).word k = s.word k :=
  State.word_of_eq (s := s) (operandOf_mem hc h) (operandOf_done hc h).cfg k

/-! ### A MOVE to `MEM_COMMIT` (R182) -/

theorem opMemStore_of_some {s : State} {a : Nat} (h : pairIndex s.cfg.cap (s.role .memAddr) = some a) :
    opMemStore s = .done () (s.storeDouble a (s.role .memData)) := by
  simp [opMemStore, checkedPair, h]

theorem opMemStore_of_none {s : State} (h : pairIndex s.cfg.cap (s.role .memAddr) = none) :
    opMemStore s = .raised (.badMemAddress (s.role .memAddr)) s := by
  simp [opMemStore, checkedPair, h]

/-- `MEMSTORE` is registered on `MEM_COMMIT` under both operand trigger settings (R118). -/
theorem memStore_mem_writers (t : OperandTriggers) : (Role.memCommit, Op.memStore) ∈ Config.writers t := by
  cases t <;> decide

/-- `MEMSTORE` is registered on no other register (R118). -/
theorem eq_memCommit_of_memStore {t : OperandTriggers} {e : Role × Op} (he : e ∈ Config.writers t)
    (hop : e.2 = .memStore) : e.1 = .memCommit := by
  have only : ∀ e ∈ Config.writers t, e.2 = .memStore → e.1 = .memCommit := by cases t <;> decide
  exact only e he hop

/-- Once its operand is read, a MOVE to `MEM_COMMIT` runs `MEMSTORE` on the written state. -/
theorem exec_commit {s s1 : State} (hc : s.cfg.conforming = true) {i : Instr} {v : I64}
    (hd : i.dst = s.cfg.index .memCommit) (h : operandOf i s = .done v s1) :
    exec i s = finishTick (opMemStore (written s s1 (s.cfg.index .memCommit) v)) := by
  have hcfg : (s1.advance s.pc).cfg = s.cfg := (operandOf_done hc h).cfg
  have hfires := regSet_fires (s := s1.advance s.pc) (by rwa [hcfg]) (memStore_mem_writers _) v
  rw [exec_of_operand h, hd, ← hcfg, hfires]
  rfl

/-- The address of a MOVE to `MEM_COMMIT` names a pair: the pair receives `MEM_DATA`. -/
theorem exec_commit_stores {s s1 t : State} (hc : s.cfg.conforming = true) {i : Instr} {v : I64}
    (hd : i.dst = s.cfg.index .memCommit) (h : operandOf i s = .done v s1)
    (ht : written s s1 (s.cfg.index .memCommit) v = t) {a : Nat}
    (ha : pairIndex s.cfg.cap (t.role .memAddr) = some a) :
    exec i s = .next (t.storeDouble a (t.role .memData)).countTick := by
  subst ht
  rw [exec_commit hc hd h, opMemStore_of_some (by rwa [written_cfg, (operandOf_done hc h).cfg])]
  rfl

/-- The address of a MOVE to `MEM_COMMIT` names no pair: the fault is taken. -/
theorem exec_commit_faults {s s1 t : State} (hc : s.cfg.conforming = true) {i : Instr} {v : I64}
    (hd : i.dst = s.cfg.index .memCommit) (h : operandOf i s = .done v s1)
    (ht : written s s1 (s.cfg.index .memCommit) v = t) (ha : pairIndex s.cfg.cap (t.role .memAddr) = none) :
    exec i s = .next (t.takeFault (.badMemAddress (t.role .memAddr))) := by
  subst ht
  rw [exec_commit hc hd h, opMemStore_of_none (by rwa [written_cfg, (operandOf_done hc h).cfg])]
  rfl

/-! ### Memory frame (R66, R118, R182) -/

/-- A completed write of any other register leaves memory alone. -/
theorem regSet_mem {s u : State} (hc : s.cfg.conforming = true) {d : Nat} {v : I64}
    (h : regSet d v s = .done () u) (hd : d ≠ s.cfg.index .memCommit) : u.mem = s.mem := by
  rcases regSet_cases hc h with ⟨rfl, -⟩ | ⟨e, he, rfl, hr⟩
  · rfl
  · have hop : e.2 ≠ .memStore := fun hop => hd (by rw [eq_memCommit_of_memStore he hop])
    exact (runTrigger_mem hr).1 hop

/-- An instruction with any other destination leaves every word alone. -/
theorem exec_word_unchanged {s t : State} (hc : s.cfg.conforming = true) {i : Instr} (h : exec i s = .next t)
    (hd : i.dst ≠ s.cfg.index .memCommit) (k : Nat) : t.word k = s.word k := by
  rcases exec_cases hc h with ⟨c, -, rfl, -⟩ | ⟨v, s1, ho, -, -, rfl⟩ | ⟨v, s1, c, ho, -, -, -, rfl, -⟩ |
    ⟨v, s1, u, ho, hk, -, hu, hku, rfl⟩
  · rfl
  · exact written_word hc ho i.dst k
  · exact written_word hc ho i.dst k
  · have hcfg : (s1.advance s.pc).cfg = s.cfg := hk.cfg
    have hmem := regSet_mem (by rwa [hcfg]) hu (by rwa [hcfg])
    exact (State.word_of_eq (s := written s s1 i.dst v) hmem hku.cfg k).trans (written_word hc ho i.dst k)

/-- Settles O48: the cases are another destination, a faulted read, and the two outcomes of a MOVE to `MEM_COMMIT`. -/
theorem otherWordsAreUnchanged : Obligations.OtherWordsAreUnchanged := by
  intro s t i hinv h
  have hc := hinv.conforming
  refine ⟨exec_word_unchanged hc h, fun c s1 ho k => ?_, fun v s1 hd ho => ?_⟩
  · obtain ⟨rfl, -⟩ := operandOf_raised hc ho
    obtain rfl := Host.Outcome.next.inj ((exec_of_operand_raised ho).symm.trans h)
    rfl
  · rw [hd]
    refine ⟨fun a ha k h0 h1 => ?_, fun ha k => ?_⟩
    · obtain rfl := Host.Outcome.next.inj ((exec_commit_stores hc hd ho rfl ha).symm.trans h)
      exact (State.storeDouble_word_ne _ _ h0 h1).trans (written_word hc ho _ k)
    · obtain rfl := Host.Outcome.next.inj ((exec_commit_faults hc hd ho rfl ha).symm.trans h)
      exact written_word hc ho (s.cfg.index .memCommit) k

/-! ### A store over the next instruction (R82, R253) -/

/-- Below the last i64 the advance does not wrap (R9). -/
theorem toInt_add_one {p : I64} (h : p.toInt < 2 ^ 63 - 1) : (p + 1).toInt = p.toInt + 1 := by
  have hlow : -2 ^ 63 ≤ p.toInt := BitVec.le_toInt p
  rw [BitVec.toInt_add, show BitVec.toInt (1 : I64) = 1 by decide]
  exact Int.bmod_eq_of_le (by omega) (by omega)

/-- A running machine whose counter is the word `k` of memory executes the decoding of that word (R195, R198). -/
theorem step_at_word {s : State} (hr : s.status = .running) (hc : s.cfg.conforming = true) {k : Nat}
    (hpc : s.pc.toInt = (k : Int)) (hk : k < s.cfg.cap) : step s = exec (decode (s.word k)) s := by
  have hin : s.pcInRange = true := by
    simp only [State.pcInRange, Bool.and_eq_true, decide_eq_true_eq]
    omega
  rw [step_running hr hc hin, fetch_eq, State.fetchWord, State.loadWord, State.pcIndex, hpc, Int.toNat_natCast]

/-- Settles O45: after the store the counter names one of the pair's two words, and the next step fetches it. -/
theorem storeOverTheNextWordIsRun : Obligations.StoreOverTheNextWordIsRun := by
  intro s i x s1 a hinv hrun hin hm t haddr ha
  have hc := hinv.conforming
  have hcap := (Config.cap_bounds hc).2
  have hk := operandOf_done hc hm.operand
  have hcfg : t.cfg = s.cfg := hk.cfg
  have hwf : t.mem.wf t.cfg.memInit t.cfg.cap = true := by
    rw [hcfg]
    exact hk.memory hinv.memory
  have hpc : t.pc.toInt = s.pc.toInt + 1 := by
    rw [written_pc hinv hk (Config.index_ne_pc hc (by decide)), toInt_add_one]
    simp only [State.pcInRange, Bool.and_eq_true, decide_eq_true_eq] at hin
    omega
  have next : ∀ {k : Nat} {w : Word}, k < s.cfg.cap → (t.storeDouble a (t.role .memData)).word k = w →
      s.pc.toInt + 1 = (k : Int) → step (t.storeDouble a (t.role .memData)).countTick =
        exec (decode w) (t.storeDouble a (t.role .memData)).countTick := by
    rintro k _ hlt rfl hat
    refine step_at_word ?_ ?_ ?_ ?_
    · exact hk.status.trans hrun
    · rwa [← hcfg] at hc
    · exact hpc.trans hat
    · rwa [← hcfg] at hlt
  exact ⟨_, exec_commit_stores hc hm.dst hm.operand rfl (pairIndex_of_valid haddr (by omega)),
    fun hat => next (k := 2 * a) (by omega) (State.storeDouble_word_high hwf a _) (by omega),
    fun hat => next (k := 2 * a + 1) (by omega) (State.storeDouble_word_low hwf (by rw [hcfg]; omega) _) (by omega)⟩

end Sys2Proof.Machine
end

section
/-! SUPPORT. The instruction word as a number (R91): its fields are quotients and remainders by powers of two, and
decoding and encoding are inverse to each other because these are (R95, R97, R99). -/

namespace Sys2Proof

open Sys2Proof.Machine

/-! ### The fields of a word (R91) -/

@[simp] theorem srcField_toNat (w : Word) : (srcField w).toNat = w.toNat / 2 ^ 16 := by
  rw [srcField, BitVec.extractLsb'_toNat, Nat.shiftRight_eq_div_pow]
  omega

@[simp] theorem dstField_toNat (w : Word) : (dstField w).toNat = w.toNat % 2 ^ 16 := by
  rw [dstField, BitVec.extractLsb'_toNat, Nat.shiftRight_zero]

@[simp] theorem operandField_toNat (src : Half) : (operandField src).toNat = src.toNat % 2 ^ 15 := by
  rw [operandField, BitVec.extractLsb'_toNat, Nat.shiftRight_zero]

/-- Bit 15 of the source field is bit 31 of the word. -/
theorem immediateFlag_srcField (w : Word) : immediateFlag (srcField w) = decide (w.toNat / 2 ^ 31 = 1) := by
  rw [immediateFlag, BitVec.getLsbD, Nat.testBit_eq_decide_div_mod_eq, srcField_toNat, decide_eq_decide]
  omega

/-! ### Decoding and encoding as arithmetic (R91, R99) -/

/-- A word whose bit 31 is 1 is the immediate form (R92). -/
theorem decode_of_flag_one {w : Word} (h : w.toNat / 2 ^ 31 = 1) :
    decode w = .movImm (w.toNat / 2 ^ 16 % 2 ^ 15) (w.toNat % 2 ^ 16) := by
  have hflag : immediateFlag (srcField w) = true := by rw [immediateFlag_srcField, h]; rfl
  rw [decode, decodeFields, if_pos hflag, operandField_toNat, srcField_toNat, dstField_toNat]

/-- A word whose bit 31 is 0 is the register form (R93). -/
theorem decode_of_flag_zero {w : Word} (h : w.toNat / 2 ^ 31 = 0) :
    decode w = .movReg (w.toNat / 2 ^ 16 % 2 ^ 15) (w.toNat % 2 ^ 16) := by
  have hflag : ¬ immediateFlag (srcField w) = true := by rw [immediateFlag_srcField, h]; decide
  rw [decode, decodeFields, if_neg hflag, operandField_toNat, srcField_toNat, dstField_toNat]

theorem packFields_toNat (flag : Bool) (operand : OperandField) (dst : Half) :
    (packFields flag operand dst).toNat = flag.toNat * 2 ^ 31 + operand.toNat * 2 ^ 16 + dst.toNat := by
  simp only [packFields, BitVec.toNat_cast, toNat_append_eq_add, BitVec.toNat_ofBool]
  omega

theorem encode_movImm_toNat {n d : Nat} (hn : n < 2 ^ 15) (hd : d < 2 ^ 16) :
    (encode (.movImm n d)).toNat = 2 ^ 31 + n * 2 ^ 16 + d := by
  rw [encode, packFields_toNat, BitVec.toNat_ofNat, BitVec.toNat_ofNat, Nat.mod_eq_of_lt hn, Nat.mod_eq_of_lt hd,
    Bool.toNat_true, Nat.one_mul]

theorem encode_movReg_toNat {r d : Nat} (hr : r < 2 ^ 15) (hd : d < 2 ^ 16) :
    (encode (.movReg r d)).toNat = r * 2 ^ 16 + d := by
  rw [encode, packFields_toNat, BitVec.toNat_ofNat, BitVec.toNat_ofNat, Nat.mod_eq_of_lt hr, Nat.mod_eq_of_lt hd,
    Bool.toNat_false, Nat.zero_mul, Nat.zero_add]

theorem Instr.wellFormed_movImm {n d : Nat} : (Instr.movImm n d).wellFormed = true ↔ n < 2 ^ 15 ∧ d < 2 ^ 16 := by
  simp only [wellFormed, operandFits, destinationFits, Bool.and_eq_true, decide_eq_true_eq]

theorem Instr.wellFormed_movReg {r d : Nat} : (Instr.movReg r d).wellFormed = true ↔ r < 2 ^ 15 ∧ d < 2 ^ 16 := by
  simp only [wellFormed, operandFits, destinationFits, Bool.and_eq_true, decide_eq_true_eq]

/-! ### The statements -/

/-- Settles O1: the word's number determines the form by its bit 31, and the quotients and remainders that decoding
takes of it are the operands again. -/
theorem decodeOfEncodeIsTheInstruction : Obligations.DecodeOfEncodeIsTheInstruction := by
  intro i hwf
  cases i with
  | movImm n d =>
    obtain ⟨hn, hd⟩ := Instr.wellFormed_movImm.1 hwf
    have hword := encode_movImm_toNat hn hd
    rw [decode_of_flag_one (by omega), Instr.movImm.injEq]
    omega
  | movReg r d =>
    obtain ⟨hr, hd⟩ := Instr.wellFormed_movReg.1 hwf
    have hword := encode_movReg_toNat hr hd
    rw [decode_of_flag_zero (by omega), Instr.movReg.injEq]
    omega

/-- Settles O2: a word is the sum of its fields, each at its place. -/
theorem encodeOfDecodeIsTheWord : Obligations.EncodeOfDecodeIsTheWord := by
  intro w
  have hs : w.toNat / 2 ^ 16 % 2 ^ 15 < 2 ^ 15 := Nat.mod_lt _ (by decide)
  have hd : w.toNat % 2 ^ 16 < 2 ^ 16 := Nat.mod_lt _ (by decide)
  have hw := w.isLt
  rcases (show w.toNat / 2 ^ 31 = 1 ∨ w.toNat / 2 ^ 31 = 0 by omega) with hone | hzero
  · rw [decode_of_flag_one hone]
    refine ⟨Instr.wellFormed_movImm.2 ⟨hs, hd⟩, BitVec.eq_of_toNat_eq ?_⟩
    rw [encode_movImm_toNat hs hd]
    omega
  · rw [decode_of_flag_zero hzero]
    refine ⟨Instr.wellFormed_movReg.2 ⟨hs, hd⟩, BitVec.eq_of_toNat_eq ?_⟩
    rw [encode_movReg_toNat hs hd]
    omega

/-- Settles O3: the fields as quotients and remainders, and the form by bit 31. -/
theorem wordFieldsByPosition : Obligations.WordFieldsByPosition := fun w =>
  ⟨srcField_toNat w, dstField_toNat w, immediateFlag_srcField w, by rw [operandField_toNat, srcField_toNat],
    decode_of_flag_one, decode_of_flag_zero⟩

/-- Settles O4: the packed fields as a sum, for operands in range. -/
theorem encodingAsNumbers : Obligations.EncodingAsNumbers := fun _ _ hn hd =>
  ⟨encode_movImm_toNat (Nat.lt_succ_of_le hn) (Nat.lt_succ_of_le hd),
    encode_movReg_toNat (Nat.lt_succ_of_le hn) (Nat.lt_succ_of_le hd)⟩

/-- Settles O5: the fields of the first word are computed, and each word decodes by its bit 31. -/
theorem sampleWordsDecode : Obligations.SampleWordsDecode :=
  ⟨by decide, by decide, decode_of_flag_zero (by decide), decode_of_flag_one (by decide),
    decode_of_flag_zero (by decide), decode_of_flag_one (by decide), decode_of_flag_zero (by decide),
    decode_of_flag_one (by decide)⟩

end Sys2Proof
end

section
/-! SUPPORT. A MOVE that completes, one after another (R100, R195), and one whose destination does not exist (R96). -/

namespace Sys2Proof

namespace Config

variable {cfg : Config}

/-- A role that may share its index with no write-triggered role has a register whose write only stores. -/
theorem writeOnlyStores_of_apart (hc : cfg.conforming = true) {r : Role}
    (h : ∀ q ∈ writeFiring cfg.operandTriggers, q ≠ r ∧ q.mayShare r = false) : cfg.WriteOnlyStores (cfg.index r) :=
  ⟨index_lt hc r, fun q hq => index_ne hc (h q hq).1 (h q hq).2⟩

/-- `Both` has every write-triggered role of `SecondOnly` (R130). -/
theorem writeFiring_subset_both (t : OperandTriggers) : writeFiring t ⊆ writeFiring .both := by cases t <;> decide

theorem writeOnlyStores_of_role (hc : cfg.conforming = true) {r : Role}
    (h : ∀ q ∈ writeFiring .both, q ≠ r ∧ q.mayShare r = false) : cfg.WriteOnlyStores (cfg.index r) :=
  writeOnlyStores_of_apart hc fun q hq => h q (writeFiring_subset_both _ hq)

/-- A role that may share its index with no read-triggered role has a register whose read only reads. -/
theorem readOnlyReads_of_role (hc : cfg.conforming = true) {r : Role}
    (h : ∀ q ∈ readFiring, q ≠ r ∧ q.mayShare r = false) : cfg.ReadOnlyReads (cfg.index r) :=
  ⟨index_lt hc r, fun q hq => index_ne hc (h q hq).1 (h q hq).2⟩

/-- `MEM_DATA` is write-triggered only where it shares its index with `MEM_COMMIT` (R184). -/
theorem memData_writeOnlyStores (hc : cfg.conforming = true) (h : cfg.index .memCommit ≠ cfg.index .memData) :
    cfg.WriteOnlyStores (cfg.index .memData) := by
  have hq : ∀ t, ∀ q ∈ writeFiring t, q = .memCommit ∨ (q ≠ .memData ∧ q.mayShare .memData = false) :=
    fun t => by cases t <;> decide
  refine ⟨index_lt hc _, fun q hm => ?_⟩
  obtain rfl | ⟨hne, hs⟩ := hq _ q hm
  · exact h
  · exact index_ne hc hne hs

end Config

end Sys2Proof

namespace Sys2Proof.Machine

open Sys2Proof

/-! ### Operands -/

/-- An immediate that the field holds is its own value (R92). -/
theorem toInt_immediate {n : Nat} (h : n ≤ 32767) : (BitVec.ofNat 64 n).toInt = (n : Int) := by
  rw [BitVec.toInt_ofNat']
  exact Int.bmod_eq_of_le (by omega) (by omega)

theorem operandOf_movImm (n d : Nat) (s : State) : operandOf (.movImm n d) s = .done (BitVec.ofNat 64 n) s := rfl

theorem operandOf_movReg_reads {s : State} {r : Nat} (h : s.cfg.ReadOnlyReads r) (d : Nat) :
    operandOf (.movReg r d) s = .done (s.reg r) s := regGet_reads h

theorem operandOf_movReg_out {s : State} {r : Nat} (h : s.cfg.nreg ≤ r) (d : Nat) :
    operandOf (.movReg r d) s = .raised (.badRegister r) s := regGet_out h

theorem State.setRole_role_self {s : State} {r : Role} (h : s.cfg.index r < s.regs.length) (v : I64) :
    (s.setRole r v).role r = v := State.setReg_reg_self s v h

theorem State.Inv.index_lt_length {s : State} (hs : s.Inv) (r : Role) : s.cfg.index r < s.regs.length :=
  hs.buffer ▸ Config.index_lt hs.conforming r

theorem State.setRole_role_ne {s : State} (hc : s.cfg.conforming = true) {r q : Role} (hne : r ≠ q)
    (hs : r.mayShare q = false) (v : I64) : (s.setRole r v).role q = s.role q :=
  State.setReg_reg_ne s v (Config.index_ne hc hne hs)

/-- A read-triggered source whose trigger stores `v` in it has `v` as the operand (R112, R116). -/
theorem operandOf_movReg_fires {s : State} (hs : s.Inv) {e : Role × Op} (he : e ∈ Config.readers) {v : I64}
    (h : runTrigger .read e.2 s = .done () (s.setRole e.1 v)) (d : Nat) :
    operandOf (.movReg (s.cfg.index e.1) d) s = .done v (s.setRole e.1 v) := by
  have hget : regGet (s.cfg.index e.1) s = .done ((s.setRole e.1 v).role e.1) (s.setRole e.1 v) := by
    rw [regGet_fires hs.conforming he, h]
    rfl
  rwa [State.setRole_role_self (hs.index_lt_length e.1)] at hget

/-- The operand of a MOVE from `SEL_R` (R150). -/
theorem operandOf_selR {s : State} (hs : s.Inv) (d : Nat) :
    operandOf (.movReg (s.cfg.index .selR) d) s = .done s.selected (s.setRole .selR s.selected) :=
  operandOf_movReg_fires hs (e := (.selR, .sel)) (by decide) rfl d

/-- The operand of a MOVE from `MEM_DATA` at a pair that exists (R183). -/
theorem operandOf_memData {s : State} (hs : s.Inv) {a : Nat} (ha : pairIndex s.cfg.cap (s.role .memAddr) = some a)
    (d : Nat) : operandOf (.movReg (s.cfg.index .memData) d) s =
      .done (s.loadDouble a) (s.setRole .memData (s.loadDouble a)) :=
  operandOf_movReg_fires hs (e := (.memData, .memLoad)) (by decide)
    (by simp [runTrigger, opMemLoad, checkedPair, ha]) d

/-! ### A register that does not exist (R96, R222, R228) -/

/-- Settles O25: a bad source faults before the advance, a bad destination after it and before the store. -/
theorem unknownRegisterFaults : Obligations.UnknownRegisterFaults := by
  refine ⟨fun s r d hr => exec_of_operand_raised (operandOf_movReg_out hr d), fun s i v d s1 hinv hm hd => ?_⟩
  obtain ⟨-, rfl, ho⟩ := hm
  have hcfg : (s1.advance s.pc).cfg = s.cfg := (operandOf_done hinv.conforming ho).cfg
  rw [exec_of_operand ho, regSet_out (by rwa [hcfg])]
  rfl

/-! ### A tick that completes -/

/-- The instruction `i` completes at `s` and leaves the running state `t`. -/
structure Completes (s : State) (i : Instr) (t : State) : Prop where
  exec : exec i s = .next t
  running : t.status = .running

theorem execAll_cons {s t : State} {i : Instr} (h : Completes s i t) (rest : List Instr) :
    execAll (i :: rest) s = execAll rest t := by
  rw [execAll, h.exec]
  simp only [h.running]

section
variable {s t : State} {i : Instr} (hs : s.Inv) (h : Completes s i t)
include hs h

/-- A tick that completes read its operand, wrote its destination, and was counted. -/
theorem Completes.parts : ∃ v s1 u, Keeps s s1 ∧ Keeps ((s1.advance s.pc).setReg i.dst v) u ∧ t = u.countTick := by
  rcases exec_cases hs.conforming h.exec with ⟨c, -, rfl, -⟩ | ⟨v, s1, -, -, -, rfl⟩ | ⟨v, s1, c, -, -, -, -, rfl, -⟩ |
    ⟨v, s1, u, -, hk, -, -, hku, ht⟩
  · simpa using h.running
  · simpa using h.running
  · simpa using h.running
  · exact ⟨v, s1, u, hk, hku, ht⟩

theorem Completes.cfg : t.cfg = s.cfg := (exec_keepsHistory hs.conforming h.exec).cfg

theorem Completes.ticks : t.ticks = s.ticks + 1 := by
  obtain ⟨v, s1, u, hk, hku, rfl⟩ := h.parts hs
  exact congrArg (· + 1) (hku.ticks.trans hk.ticks)

/-- A completed tick keeps the invariant. -/
theorem Completes.inv : t.Inv := by
  have hcfg := h.cfg hs
  obtain ⟨v, s1, u, hk, hku, rfl⟩ := h.parts hs
  obtain ⟨es, hes, hv⟩ := hk.trace
  obtain ⟨es', hes', hv'⟩ := hku.trace
  refine ⟨hcfg ▸ hs.conforming, ?_, ?_, fun e he => ?_, fun n p he => (nomatch h.running.symm.trans he),
    fun c he => (nomatch h.running.symm.trans he)⟩
  · rw [hcfg, (exec_keepsHistory hs.conforming h.exec).buffer, hs.buffer]
  · have hmem := hku.memory
    simp only [State.setReg_mem, State.setReg_cfg, State.advance_mem, State.advance_cfg, hk.cfg] at hmem
    rw [hcfg]
    exact hmem (hk.memory hs.memory)
  · have htrace : u.countTick.trace = s.trace ++ es ++ es' := hes'.trans (congrArg (· ++ es') hes)
    rw [htrace, List.mem_append, List.mem_append] at he
    rw [hcfg]
    rcases he with (he | he) | he
    · exact hs.trace e he
    · exact hv e he
    · exact hk.cfg ▸ hv' e he

end

section
variable {s s1 : State} {i : Instr} {v : I64}

/-- A tick whose operand is read and whose destination is written completes. -/
theorem completes_of_regSet (hs : s.Inv) (hr : s.status = .running) (ho : operandOf i s = .done v s1) {u : State}
    (hu : regSet i.dst v (s1.advance s.pc) = .done () u) : Completes s i u.countTick := by
  have hk := operandOf_done hs.conforming ho
  have hc : (s1.advance s.pc).cfg.conforming = true := hk.cfg ▸ hs.conforming
  refine ⟨by rw [exec_of_operand ho, hu]; rfl, ?_⟩
  exact ((regSet_done hc hu).2.status.trans hk.status).trans hr

/-- A MOVE whose destination only stores completes in the written state. -/
theorem completes_stores (hs : s.Inv) (hr : s.status = .running) (ho : operandOf i s = .done v s1)
    (hd : s.cfg.WriteOnlyStores i.dst) : Completes s i (written s s1 i.dst v).countTick := by
  have hcfg : (s1.advance s.pc).cfg = s.cfg := (operandOf_done hs.conforming ho).cfg
  exact completes_of_regSet hs hr ho (regSet_stores (by rwa [hcfg]) v)

/-- A MOVE whose destination is write-triggered completes in the state its trigger leaves. -/
theorem completes_fires (hs : s.Inv) (hr : s.status = .running) (ho : operandOf i s = .done v s1) {e : Role × Op}
    (he : e ∈ Config.writers s.cfg.operandTriggers) (hd : i.dst = s.cfg.index e.1) {u : State}
    (hu : runTrigger .write e.2 (written s s1 i.dst v) = .done () u) : Completes s i u.countTick := by
  have hcfg : (s1.advance s.pc).cfg = s.cfg := (operandOf_done hs.conforming ho).cfg
  refine completes_of_regSet hs hr ho ?_
  have hfires := regSet_fires (s := s1.advance s.pc) (hcfg ▸ hs.conforming) (hcfg ▸ he) v
  rw [hcfg, ← hd] at hfires
  rw [hfires, ← hu, State.setRole, hcfg, ← hd]
  rfl

theorem written_reg_self (hs : s.Inv) (hk : Keeps s s1) {d : Nat} (hd : d < s.cfg.nreg) (v : I64) :
    (written s s1 d v).reg d = v :=
  State.setReg_reg_self _ v (by simpa [hk.buffer, hs.buffer] using hd)

theorem written_reg_ne (hk : Keeps s s1) {d j : Nat} (hd : d ≠ j) (hj : s.cfg.pcIdx ≠ j) (v : I64) :
    (written s s1 d v).reg j = s1.reg j :=
  (State.setReg_reg_ne _ v hd).trans (State.setReg_reg_ne s1 _ (hk.cfg ▸ hj))

/-- `i` completes at `s` by storing `v` in the register of `r`, where its operand's read left `s1`. -/
structure Stores (s s1 : State) (i : Instr) (r : Role) (v : I64) (t : State) : Prop extends Completes s i t where
  value : t.role r = v
  frame : ∀ q, q ≠ .pc → r ≠ q → r.mayShare q = false → t.role q = s1.role q
  word : ∀ k, t.word k = s.word k

theorem exists_stores (hs : s.Inv) (hr : s.status = .running) (ho : operandOf i s = .done v s1) {r : Role}
    (hd : i.dst = s.cfg.index r) (hstores : s.cfg.WriteOnlyStores (s.cfg.index r)) : ∃ t, Stores s s1 i r v t := by
  have hc := hs.conforming
  have hk := operandOf_done hc ho
  have role_eq : ∀ q, (written s s1 i.dst v).role q = (written s s1 i.dst v).reg (s.cfg.index q) :=
    fun q => congrArg (fun c => (written s s1 i.dst v).reg (Config.index c q)) hk.cfg
  refine ⟨_, completes_stores hs hr ho (hd ▸ hstores), ?_, fun q hq hne hsh => ?_, written_word hc ho i.dst⟩
  · rw [State.countTick_role, role_eq, hd, written_reg_self hs hk hstores.1]
  · rw [State.countTick_role, role_eq, written_reg_ne hk (hd ▸ Config.index_ne hc hne hsh)
      (Config.index_ne_pc hc hq).symm, State.role, hk.cfg]

/-- A MOVE to a role's register that never fires completes as a store. -/
theorem exists_stores_role (r : Role) (h : ∀ q ∈ writeFiring .both, q ≠ r ∧ q.mayShare r = false) (hs : s.Inv)
    (hr : s.status = .running) (ho : operandOf i s = .done v s1) (hd : i.dst = s.cfg.index r) :
    ∃ t, Stores s s1 i r v t :=
  exists_stores hs hr ho hd (Config.writeOnlyStores_of_role hs.conforming h)

end

/-! ### The halt (R100, R197, R207) -/

/-- A running machine whose counter is at or above `CAP` halts. -/
theorem step_halts_of_cap_le {s : State} (hs : s.Inv) (hr : s.status = .running)
    (h : (s.cfg.cap : Int) ≤ s.pc.toInt) : step s = .next s.halt := by
  refine step_halts hr hs.conforming ?_
  simp only [State.pcInRange, Bool.and_eq_false_iff, decide_eq_false_iff_not]
  omega

section
variable {s s1 : State} (hs : s.Inv) (hr : s.status = .running)
include hs hr

/-- A MOVE into the counter jumps (R204). -/
theorem exists_jump {i : Instr} {v : I64} (ho : operandOf i s = .done v s1) (hd : i.dst = s.cfg.pcIdx) :
    ∃ t, Stores s s1 i .pc v t :=
  exists_stores hs hr ho hd (Config.pc_writeOnlyStores hs.conforming)

/-- A jump to a target at or above `CAP` is followed by the halt. -/
theorem exists_jump_halts {i : Instr} {v : I64} (ho : operandOf i s = .done v s1) (hd : i.dst = s.cfg.pcIdx)
    (hv : (s.cfg.cap : Int) ≤ v.toInt) : ∃ t, Completes s i t ∧ step t = .next t.halt ∧ t.pc = v := by
  obtain ⟨t, ht⟩ := exists_jump hs hr ho hd
  have hpc : t.pc = v := ht.value
  exact ⟨t, ht.toCompletes, step_halts_of_cap_le (ht.inv hs) ht.running (by rwa [ht.cfg hs, hpc]), hpc⟩

end

/-! ### Multiplication by writes of its operands (R134) -/

/-- An exact result that fits is stored under either policy (R131). -/
theorem narrowedInto_of_fits {op : ArithOp} {a b r : Role} {s : State} {n : Int}
    (hn : op.exact (s.role a) (s.role b) = n) (hfit : fits64 n = true) :
    narrowedInto op a b r s = .done () (s.setRole r (wrap64 n)) := by
  rw [narrowedInto, hn, narrow_ok_of_fits hfit]

section
variable {s : State} (hs : s.Inv)
include hs

theorem written_role_self (r : Role) (v : I64) : (written s s (s.cfg.index r) v).role r = v :=
  written_reg_self hs (Keeps.refl s) (Config.index_lt hs.conforming r) v

theorem written_role_ne {r q : Role} (hne : r ≠ q) (hsh : r.mayShare q = false) (hq : q ≠ .pc) (v : I64) :
    (written s s (s.cfg.index r) v).role q = s.role q :=
  written_reg_ne (Keeps.refl s) (Config.index_ne hs.conforming hne hsh) (Config.index_ne_pc hs.conforming hq).symm v

variable (hr : s.status = .running)
include hr

/-- A write that fires `MUL` completes where the product fits. -/
theorem completes_mul {r : Role} (he : (r, Op.mul) ∈ Config.writers s.cfg.operandTriggers) (m : Nat) {n : Int}
    (hn : ((written s s (s.cfg.index r) (BitVec.ofNat 64 m)).role .mulA).toInt *
      ((written s s (s.cfg.index r) (BitVec.ofNat 64 m)).role .mulB).toInt = n) (hfit : fits64 n = true) :
    Completes s (.movImm m (s.cfg.index r))
      ((written s s (s.cfg.index r) (BitVec.ofNat 64 m)).setRole .mulR (wrap64 n)).countTick :=
  completes_fires hs hr (operandOf_movImm m _ s) he rfl (narrowedInto_of_fits hn hfit)

/-- Writing the first factor leaves it stored, where its product with the old second factor fits (R251). -/
theorem exists_first_factor {m : Nat} (hm : m ≤ 32767)
    (hfit : fits64 (m * (s.role .mulB).toInt) = true) :
    ∃ t, Completes s (.movImm m (s.cfg.index .mulA)) t ∧ t.role .mulA = BitVec.ofNat 64 m := by
  have hc := hs.conforming
  have hself := written_role_self hs .mulA (BitVec.ofNat 64 m)
  cases htr : s.cfg.operandTriggers with
  | both =>
    have hprod := completes_mul hs hr (r := .mulA) (by rw [htr]; decide) m
      (by rw [hself, toInt_immediate hm, written_role_ne hs (by decide) rfl (by decide)]) hfit
    have hkept := State.setRole_role_ne (s := written s s (s.cfg.index .mulA) (BitVec.ofNat 64 m)) (r := .mulR)
      (q := .mulA) hc (by decide) rfl
    exact ⟨_, hprod, (hkept _).trans hself⟩
  | secondOnly =>
    have hstores := Config.writeOnlyStores_of_apart hc (r := .mulA) (by rw [htr]; decide)
    obtain ⟨t, ht⟩ := exists_stores hs hr (operandOf_movImm m _ s) rfl hstores
    exact ⟨t, ht.toCompletes, ht.value⟩

/-- Writing the second factor leaves the product in the result register; two immediates' product fits. -/
theorem exists_second_factor {m n : Nat} (hm : m ≤ 32767) (hn : n ≤ 32767) (ha : s.role .mulA = BitVec.ofNat 64 m) :
    ∃ t, Completes s (.movImm n (s.cfg.index .mulB)) t ∧ (t.role .mulR).toInt = ((m * n : Nat) : Int) := by
  have he : (Role.mulB, Op.mul) ∈ Config.writers s.cfg.operandTriggers := by
    cases s.cfg.operandTriggers <;> decide
  have hle : m * n ≤ 32767 * 32767 := Nat.mul_le_mul hm hn
  have hprod := completes_mul hs hr he n (n := ((m * n : Nat) : Int))
    (by rw [written_role_self hs, written_role_ne hs (by decide) rfl (by decide), ha, toInt_immediate hm,
      toInt_immediate hn, Int.natCast_mul])
    (by simp only [fits64, Bool.and_eq_true, decide_eq_true_eq]; omega)
  have hlen : (written s s (s.cfg.index .mulB) (BitVec.ofNat 64 n)).regs.length = s.cfg.nreg := by
    simp [written, hs.buffer]
  refine ⟨_, hprod, ?_⟩
  rw [State.countTick_role, State.setRole_role_self (hlen ▸ Config.index_lt hs.conforming .mulR)]
  exact toInt_wrap64_of_range (by omega)

end

/-! ### Loads of a pair (R65, R66) -/

/-- A load of the pair just stored gives the value stored (R65, R66). -/
theorem State.storeDouble_loadDouble {s : State} (h : s.mem.wf s.cfg.memInit s.cfg.cap = true) {a : Nat}
    (ha : 2 * a + 1 < s.cfg.cap) (v : I64) : (s.storeDouble a v).loadDouble a = v := by
  rw [State.loadDouble, State.storeDouble_word_high h, State.storeDouble_word_low h (by omega)]
  exact pair_bits v

theorem State.loadDouble_of_words {s t : State} (h : ∀ k, t.word k = s.word k) (a : Nat) :
    t.loadDouble a = s.loadDouble a := by rw [State.loadDouble, State.loadDouble, h, h]

/-! ### The expansions (R100) -/

/-- Settles O57: the small expansion jumps to 32767, the large one to the product 1024 * 1024; the range of the old
`MUL_B` keeps the first write's product in range. -/
theorem haltExpansionsHalt : Obligations.HaltExpansionsHalt := by
  refine ⟨fun s hs hr hcap => ?_, fun s hs hr hcap hlo hhi => ?_⟩
  · have hv := toInt_immediate (n := 32767) (by decide)
    obtain ⟨t, ht, hstep, hpc⟩ := exists_jump_halts hs hr (operandOf_movImm 32767 s.cfg.pcIdx s) rfl (by omega)
    exact ⟨t, execAll_cons ht [], ht.running, hstep, by rw [hpc, hv]; rfl⟩
  · have hfit : fits64 ((1024 : Nat) * (s.role .mulB).toInt) = true := by
      simp only [fits64, Bool.and_eq_true, decide_eq_true_eq]
      omega
    obtain ⟨t, ht, hfactor⟩ := exists_first_factor hs hr (by decide) hfit
    have htInv := ht.inv hs
    have htCfg := ht.cfg hs
    obtain ⟨u, hu, hproduct⟩ := exists_second_factor htInv ht.running (n := 1024) (by decide) (by decide) hfactor
    have huInv := hu.inv htInv
    have huCfg := (hu.cfg htInv).trans htCfg
    have hreads := Config.readOnlyReads_of_role huInv.conforming (r := .mulR) (by decide)
    obtain ⟨w, hw, hstep, hpc⟩ := exists_jump_halts huInv hu.running (operandOf_movReg_reads hreads u.cfg.pcIdx) rfl
      (by rw [← State.role, hproduct, huCfg]; omega)
    rw [htCfg] at hu
    rw [huCfg] at hw
    refine ⟨w, ?_, hw.running, hstep, by rw [hpc, ← State.role, hproduct]; rfl⟩
    calc execAll (Pseudo.haltLarge s.cfg) s
        = execAll [.movImm 1024 s.cfg.map.mulB, .movReg s.cfg.map.mulR s.cfg.pcIdx] t := execAll_cons ht _
      _ = execAll [.movReg s.cfg.map.mulR s.cfg.pcIdx] u := execAll_cons hu _
      _ = .next w := execAll_cons hw []

/-- Settles O58: three stores set up the select, and the jump reads it. -/
theorem branchExpansionSelectsTheTarget : Obligations.BranchExpansionSelectsTheTarget := by
  intro s c t f hs hr hreads ht hf
  obtain ⟨x, hx⟩ := exists_stores_role .selCond (by decide) hs hr
    (operandOf_movReg_reads hreads s.cfg.map.selCond) rfl
  have hxInv := hx.inv hs
  have hxCfg := hx.cfg hs
  obtain ⟨y, hy⟩ := exists_stores_role .selIfZero (by decide) hxInv hx.running
    (operandOf_movImm f s.cfg.map.selIfZero x) (by rw [hxCfg]; rfl)
  have hyInv := hy.inv hxInv
  have hyCfg := (hy.cfg hxInv).trans hxCfg
  obtain ⟨z, hz⟩ := exists_stores_role .selIfNonzero (by decide) hyInv hy.running
    (operandOf_movImm t s.cfg.map.selIfNonzero y) (by rw [hyCfg]; rfl)
  have hzInv := hz.inv hyInv
  have hzCfg := (hz.cfg hyInv).trans hyCfg
  obtain ⟨u, hu⟩ := exists_jump hzInv hz.running (operandOf_selR hzInv s.cfg.pcIdx) (by rw [hzCfg]; rfl)
  rw [hzCfg] at hu
  have hcond : z.role .selCond = s.reg c :=
    calc z.role .selCond = y.role .selCond := hz.frame _ (by decide) (by decide) rfl
      _ = x.role .selCond := hy.frame _ (by decide) (by decide) rfl
      _ = s.reg c := hx.value
  have hzero : z.role .selIfZero = BitVec.ofNat 64 f :=
    (hz.frame _ (by decide) (by decide) rfl).trans hy.value
  have hpc : u.pc = z.selected := hu.value
  refine ⟨u, ?_, hu.running, ?_, ?_⟩
  · calc execAll (Pseudo.bnz s.cfg c t f) s
        = execAll [.movImm f s.cfg.map.selIfZero, .movImm t s.cfg.map.selIfNonzero,
            .movReg s.cfg.map.selR s.cfg.pcIdx] x := execAll_cons hx.toCompletes _
      _ = execAll [.movImm t s.cfg.map.selIfNonzero, .movReg s.cfg.map.selR s.cfg.pcIdx] y :=
          execAll_cons hy.toCompletes _
      _ = execAll [.movReg s.cfg.map.selR s.cfg.pcIdx] z := execAll_cons hz.toCompletes _
      _ = .next u := execAll_cons hu.toCompletes []
  · rw [hu.ticks hzInv, hz.ticks hyInv, hy.ticks hxInv, hx.ticks hs]
  · rw [hpc, State.selected, hcond, hzero, hz.value]
    split
    · exact toInt_immediate hf
    · exact toInt_immediate ht

/-- The `ld` expansion: the address is stored, then `MEM_DATA` is read. -/
theorem loadExpansion_loads {s : State} {d a : Nat} (hs : s.Inv) (hr : s.status = .running)
    (hd : s.cfg.WriteOnlyStores d) (ha : a ≤ 32767) (hcap : 2 * a + 1 < s.cfg.cap) :
    ∃ t, execAll (Pseudo.ld s.cfg d a) s = .next t ∧ t.status = .running ∧ t.reg d = s.loadDouble a := by
  obtain ⟨x, hx⟩ := exists_stores_role .memAddr (by decide) hs hr (operandOf_movImm a s.cfg.map.memAddr s) rfl
  have hxInv := hx.inv hs
  have hxCfg := hx.cfg hs
  have hpair : pairIndex x.cfg.cap (x.role .memAddr) = some a := by
    rw [hx.value, hxCfg, pairIndex_of_valid (toInt_immediate ha) hcap]
  have ho := operandOf_memData hxInv hpair d
  have ht := completes_stores hxInv hx.running ho (by rwa [hxCfg])
  have hvalue := written_reg_self hxInv (operandOf_done hxInv.conforming ho) (by rw [hxCfg]; exact hd.1)
    (x.loadDouble a)
  rw [hxCfg] at ht
  refine ⟨_, ?_, ht.running, hvalue.trans (State.loadDouble_of_words hx.word a)⟩
  calc execAll (Pseudo.ld s.cfg d a) s
      = execAll [.movReg s.cfg.map.memData d] x := execAll_cons hx.toCompletes _
    _ = _ := execAll_cons ht []

/-- The `st` expansion: data and address are stored, then the commit writes the pair. -/
theorem storeExpansion_stores {s : State} {r a : Nat} (hs : s.Inv) (hr : s.status = .running)
    (hreads : s.cfg.ReadOnlyReads r) (ha : a ≤ 32767) (hcap : 2 * a + 1 < s.cfg.cap)
    (hne : s.cfg.index .memCommit ≠ s.cfg.index .memData) :
    ∃ t, execAll (Pseudo.st s.cfg r a) s = .next t ∧ t.status = .running ∧ t.loadDouble a = s.reg r ∧
      ∀ k, k ≠ 2 * a → k ≠ 2 * a + 1 → t.word k = s.word k := by
  obtain ⟨x, hx⟩ := exists_stores hs hr (operandOf_movReg_reads hreads s.cfg.map.memData) (r := .memData) rfl
    (Config.memData_writeOnlyStores hs.conforming hne)
  have hxInv := hx.inv hs
  have hxCfg := hx.cfg hs
  obtain ⟨y, hy⟩ := exists_stores_role .memAddr (by decide) hxInv hx.running
    (operandOf_movImm a s.cfg.map.memAddr x) (by rw [hxCfg]; rfl)
  have hyInv := hy.inv hxInv
  have hyCfg := (hy.cfg hxInv).trans hxCfg
  have hdata : (written y y (y.cfg.index .memCommit) (BitVec.ofNat 64 0)).role .memData = s.reg r :=
    calc _ = y.role .memData :=
          written_reg_ne (Keeps.refl y) (by rwa [hyCfg]) (Config.index_ne_pc hyInv.conforming (by decide)).symm _
      _ = x.role .memData := hy.frame _ (by decide) (by decide) rfl
      _ = s.reg r := hx.value
  have haddr : (written y y (y.cfg.index .memCommit) (BitVec.ofNat 64 0)).role .memAddr = BitVec.ofNat 64 a :=
    (written_role_ne hyInv (by decide) rfl (by decide) _).trans hy.value
  have hstore := exec_commit_stores hyInv.conforming (by rw [hyCfg]; rfl) (operandOf_movImm 0 s.cfg.map.memCommit y) rfl
    (by rw [haddr, hyCfg, pairIndex_of_valid (toInt_immediate ha) hcap])
  rw [hdata] at hstore
  have ht : Completes y _ _ := ⟨hstore, hy.running⟩
  refine ⟨_, ?_, ht.running, State.storeDouble_loadDouble hyInv.memory (by rwa [hyCfg]) _, fun k h0 h1 => ?_⟩
  · calc execAll (Pseudo.st s.cfg r a) s
        = execAll [.movImm a s.cfg.map.memAddr, .movImm 0 s.cfg.map.memCommit] x := execAll_cons hx.toCompletes _
      _ = execAll [.movImm 0 s.cfg.map.memCommit] y := execAll_cons hy.toCompletes _
      _ = _ := execAll_cons ht []
  · exact (State.storeDouble_word_ne _ _ h0 h1).trans ((hy.word k).trans (hx.word k))

/-- Settles O59: each expansion by its own lemma. -/
theorem loadAndStoreExpansions : Obligations.LoadAndStoreExpansions :=
  ⟨fun _ _ _ hs hr hd ha hcap => loadExpansion_loads hs hr hd ha hcap,
    fun _ _ _ hs hr hreads ha hcap hne => storeExpansion_stores hs hr hreads ha hcap hne⟩

end Sys2Proof.Machine
end

section
/-! SUPPORT. A value stored in `SEL_R`, `CON_IN` or `SEC_NL` is never observed (R122, R152): no operation reads the
register, and a MOVE that names it overwrites it first. -/

namespace Sys2Proof.Machine

open Sys2Proof

/-- The registers whose values an operation reads (R118). -/
def operandRoles : Op → List Role
  | .add => [.addA, .addB]
  | .sub => [.subA, .subB]
  | .mul => [.mulA, .mulB]
  | .div => [.divN, .divD]
  | .lt => [.ltA, .ltB]
  | .sel => [.selCond, .selIfZero, .selIfNonzero]
  | .conOut => [.conOut]
  | .secOut => [.secOut]
  | .memStore => [.memAddr, .memData]
  | .memLoad => [.memAddr]
  | .conIn | .secNl => []

/-! ### An operation on other registers -/

section
variable {s : State} {k : Nat}

theorem State.setReg_role_ne {q : Role} (h : s.cfg.index q ≠ k) (w : I64) : (s.setReg k w).role q = s.role q :=
  State.setReg_reg_ne s w h.symm

theorem State.setReg_setRole_ne {q : Role} (h : s.cfg.index q ≠ k) (w v : I64) :
    (s.setReg k w).setRole q v = (s.setRole q v).setReg k w :=
  State.setReg_comm s w v h.symm

theorem State.setReg_poll (w : I64) : (s.setReg k w).poll = s.poll.setReg k w := by
  obtain ⟨_, _, _, _, _, _, inputs, _⟩ := s
  cases inputs <;> rfl

theorem narrowedInto_setReg (op : ArithOp) {a b r : Role} (ha : s.cfg.index a ≠ k) (hb : s.cfg.index b ≠ k)
    (hr : s.cfg.index r ≠ k) (w : I64) :
    narrowedInto op a b r (s.setReg k w) = (narrowedInto op a b r s).mapState (·.setReg k w) := by
  simp only [narrowedInto, State.setReg_cfg, State.setReg_role_ne ha, State.setReg_role_ne hb,
    State.setReg_setRole_ne hr]
  split <;> rfl

theorem emitChar_setReg (port : Port) (v w : I64) :
    emitChar port v (s.setReg k w) = (emitChar port v s).mapState (·.setReg k w) := by
  simp only [emitChar]
  split <;> rfl

theorem checkedPair_setReg (h : s.cfg.index .memAddr ≠ k) (w : I64) : checkedPair (s.setReg k w) = checkedPair s := by
  simp only [checkedPair, State.setReg_cfg, State.setReg_role_ne h]

/-- An operation that neither reads nor stores to register `k` runs the same whatever `k` holds. -/
theorem runTrigger_setReg {ph : Phase} {op : Op} (hops : ∀ q ∈ operandRoles op, s.cfg.index q ≠ k)
    (hres : ∀ q ∈ resultRoles op, s.cfg.index q ≠ k) (w : I64) :
    runTrigger ph op (s.setReg k w) = (runTrigger ph op s).mapState (·.setReg k w) := by
  cases op <;> simp only [operandRoles, resultRoles, List.mem_cons, List.not_mem_nil, or_false, forall_eq_or_imp,
    forall_eq] at hops hres
  case add | sub | mul => exact narrowedInto_setReg _ hops.1 hops.2 hres w
  case div =>
    simp only [runTrigger, opDiv, State.setReg_role_ne hops.1, State.setReg_role_ne hops.2]
    split
    · simp only [Run.mapState_done, State.setReg_setRole_ne hres.1]
      exact congrArg (Run.done ()) (State.setReg_setRole_ne (s := s.setRole .divQ _) hres.2 w _)
    · rfl
  case lt =>
    simp only [runTrigger, opLt, State.setReg_role_ne hops.1, State.setReg_role_ne hops.2,
      State.setReg_setRole_ne hres, Run.mapState_done]
  case sel =>
    simp only [runTrigger, opSel, State.selected, State.setReg_role_ne hops.1, State.setReg_role_ne hops.2.1,
      State.setReg_role_ne hops.2.2, State.setReg_setRole_ne hres, Run.mapState_done]
  case conOut =>
    simp only [runTrigger, opConOut, State.setReg_role_ne hops, State.setReg_cfg, emitChar_setReg]
    split <;> rfl
  case conIn =>
    have hpoll : s.poll.cfg.index .conIn ≠ k := by rwa [State.poll_cfg]
    simp only [runTrigger, opConIn, State.setReg_poll, State.setReg_setRole_ne hpoll, Run.mapState_done]
    rfl
  case secOut => simp only [runTrigger, opSecOut, State.setReg_role_ne hops, emitChar_setReg]
  case secNl => simp only [runTrigger, opSecNl, State.setReg_setRole_ne hres, State.setReg_cfg, Run.mapState_done]
  case memStore =>
    simp only [runTrigger, opMemStore, checkedPair_setReg hops.1, State.setReg_role_ne hops.2]
    split <;> rfl
  case memLoad =>
    simp only [runTrigger, opMemLoad, checkedPair_setReg hops]
    split
    · exact congrArg (Run.done ()) (State.setReg_setRole_ne hres w _)
    · rfl

end

/-! ### Results that agree but for one register -/

/-- The results agree but for what register `k` holds in the state they leave. -/
def Run.SameBut {α : Type} (k : Nat) (x y : Run α) : Prop := ∃ w, y = x.mapState (·.setReg k w)

theorem Run.SameBut.refl {α : Type} (k : Nat) (x : Run α) : x.SameBut k x := by
  cases x with
  | done a t => exact ⟨t.reg k, by rw [Run.mapState_done, State.setReg_reg_eq]⟩
  | raised c t => exact ⟨t.reg k, by rw [Run.mapState_raised, State.setReg_reg_eq]⟩

theorem Run.SameBut.andThen {α β : Type} {k : Nat} {x y : Run α} {f : α → State → Run β} (h : x.SameBut k y)
    (hf : ∀ a t w, x = .done a t → (f a t).SameBut k (f a (t.setReg k w))) :
    (x.andThen f).SameBut k (y.andThen f) := by
  obtain ⟨w, rfl⟩ := h
  cases x with
  | done a t => exact hf a t w rfl
  | raised c t => exact ⟨w, rfl⟩

theorem Run.SameBut.finishTick {k : Nat} {x y : Run Unit} (h : x.SameBut k y) {t : State}
    (ht : Machine.finishTick x = .next t) : ∃ w, Machine.finishTick y = .next (t.setReg k w) := by
  obtain ⟨w, rfl⟩ := h
  cases x with
  | done _ u => exact ⟨w, by rw [← Host.Outcome.next.inj ht]; rfl⟩
  | raised c u => exact ⟨w, by rw [← Host.Outcome.next.inj ht]; rfl⟩

/-! ### The three port registers -/

/-- The registers whose every read stores a value first that does not depend on the old one (R122, R152). -/
def overwrittenPorts : List Role := [.selR, .conIn, .secNl]

theorem overwrittenPorts_subset_readFiring : overwrittenPorts ⊆ readFiring := by decide

theorem overwrittenPorts_ne_pc : ∀ r ∈ overwrittenPorts, r ≠ .pc := by decide

theorem reader_not_mayShare_port : ∀ r ∈ overwrittenPorts, ∀ e ∈ Config.readers, e.1.mayShare r = false := by decide

/-- A read-trigger's operands and results lie apart from these registers, unless one is its own. -/
theorem reader_roles_apart_port : ∀ r ∈ overwrittenPorts, ∀ e ∈ Config.readers,
    ∀ q ∈ operandRoles e.2 ++ resultRoles e.2, q = e.1 ∨ (q ≠ r ∧ q.mayShare r = false) := by decide

/-- A write-trigger's operands and results lie apart from these registers, unless one is its own. -/
theorem writer_roles_apart_port (t : OperandTriggers) : ∀ r ∈ overwrittenPorts, ∀ e ∈ Config.writers t,
    ∀ q ∈ operandRoles e.2 ++ resultRoles e.2, q = e.1 ∨ (q ≠ r ∧ q.mayShare r = false) := by
  cases t <;> decide

/-- The read-trigger of one of these registers does not use what it held. -/
theorem runTrigger_overwrites {s : State} (hc : s.cfg.conforming = true) {e : Role × Op} (he : e ∈ Config.readers)
    (hr : e.1 ∈ overwrittenPorts) (w : I64) :
    runTrigger .read e.2 (s.setReg (s.cfg.index e.1) w) = runTrigger .read e.2 s := by
  have own : ∀ e ∈ Config.readers, e.1 ∈ overwrittenPorts →
      e = (.selR, .sel) ∨ e = (.conIn, .conIn) ∨ e = (.secNl, .secNl) := by decide
  rcases own e he hr with rfl | rfl | rfl
  · have apart : ∀ {q : Role}, q ≠ .selR → q.mayShare .selR = false →
        (s.setReg (s.cfg.index .selR) w).role q = s.role q :=
      fun hne hs => State.setReg_role_ne (Config.index_ne hc hne hs) w
    simp only [runTrigger, opSel, State.selected, apart (q := .selCond) (by decide) rfl,
      apart (q := .selIfZero) (by decide) rfl, apart (q := .selIfNonzero) (by decide) rfl]
    exact congrArg (Run.done ()) (State.setReg_setReg s _ _ _)
  · simp only [runTrigger, opConIn, State.setReg_poll, State.setRole, State.setReg_cfg, State.poll_cfg,
      State.setReg_setReg]
    rfl
  · exact congrArg (Run.done ()) (State.setReg_setReg s _ _ _)

section
variable {s : State} (hc : s.cfg.conforming = true) {r : Role} (hr : r ∈ overwrittenPorts) {k : Nat}
  (hk : s.cfg.index r = k)
include hc hk

/-- A trigger of another register runs the same whatever the port register holds. -/
theorem runTrigger_sameBut {e : Role × Op}
    (he : ∀ q ∈ operandRoles e.2 ++ resultRoles e.2, q = e.1 ∨ (q ≠ r ∧ q.mayShare r = false))
    (hne : s.cfg.index e.1 ≠ k) (ph : Phase) (w : I64) :
    (runTrigger ph e.2 s).SameBut k (runTrigger ph e.2 (s.setReg k w)) := by
  have apart : ∀ q ∈ operandRoles e.2 ++ resultRoles e.2, s.cfg.index q ≠ k := fun q hq => by
    rcases he q hq with rfl | ⟨hqr, hs⟩
    · exact hne
    · exact hk ▸ Config.index_ne hc hqr hs
  exact ⟨w, runTrigger_setReg (fun q hq => apart q (List.mem_append_left _ hq))
    (fun q hq => apart q (List.mem_append_right _ hq)) w⟩

include hr

/-- `Get` of the port register runs its trigger first, and `Get` of another does not use it. -/
theorem regGet_sameBut (i : Nat) (w : I64) : (regGet i s).SameBut k (regGet i (s.setReg k w)) := by
  rcases Config.read_cases s.cfg i with hi | hi | ⟨e, he, rfl⟩
  · rw [regGet_out hi, regGet_out (s := s.setReg k w) hi]
    exact ⟨w, rfl⟩
  · have hne : k ≠ i := hk ▸ hi.2 r (overwrittenPorts_subset_readFiring hr)
    rw [regGet_reads hi, regGet_reads (s := s.setReg k w) hi, State.setReg_reg_ne s w hne]
    exact ⟨w, rfl⟩
  · have hfires := regGet_fires (s := s.setReg k w) hc he
    rw [State.setReg_cfg] at hfires
    rw [regGet_fires hc he, hfires]
    by_cases her : e.1 = r
    · subst her hk
      rw [runTrigger_overwrites hc he hr]
      exact Run.SameBut.refl _ _
    · have hne : s.cfg.index e.1 ≠ k := hk ▸ Config.index_ne hc her (reader_not_mayShare_port r hr e he)
      refine (runTrigger_sameBut hc hk (reader_roles_apart_port r hr e he) hne .read w).andThen fun _ t w' _ => ?_
      exact ⟨w', by rw [State.setReg_reg_ne t w' hne.symm]; rfl⟩

/-- `Set` of the port register replaces what it held, and `Set` of another does not use it. -/
theorem regSet_sameBut (d : Nat) (v w : I64) : (regSet d v s).SameBut k (regSet d v (s.setReg k w)) := by
  by_cases hd : d = k
  · have hlt : ¬ s.cfg.nreg ≤ k := by have := Config.index_lt hc r; omega
    have heq : regSet d v (s.setReg k w) = regSet d v s := by
      subst hd
      simp only [regSet, State.setReg_cfg, if_neg hlt, State.setReg_setReg]
    rw [heq]
    exact Run.SameBut.refl _ _
  have hcomm := State.setReg_comm s w v (Ne.symm hd)
  rcases Config.write_cases s.cfg d with hi | hi | ⟨e, he, rfl⟩
  · rw [regSet_out hi, regSet_out (s := s.setReg k w) hi]
    exact ⟨w, rfl⟩
  · rw [regSet_stores hi, regSet_stores (s := s.setReg k w) hi, hcomm]
    exact ⟨w, rfl⟩
  · have hfires := regSet_fires (s := s.setReg k w) hc he v
    rw [State.setRole, State.setReg_cfg, hcomm] at hfires
    rw [regSet_fires hc he, hfires]
    exact runTrigger_sameBut (s := s.setReg _ v) hc hk (writer_roles_apart_port _ r hr e he) hd .write w

theorem operandOf_sameBut (i : Instr) (w : I64) : (operandOf i s).SameBut k (operandOf i (s.setReg k w)) := by
  cases i with
  | movImm n d => exact ⟨w, rfl⟩
  | movReg i d => exact regGet_sameBut hc hr hk i w

theorem deliver_sameBut (p : I64) (d : Nat) (v w : I64) :
    (deliver p d v s).SameBut k (deliver p d v (s.setReg k w)) := by
  have hpc : k ≠ s.cfg.pcIdx := hk ▸ Config.index_ne_pc hc (overwrittenPorts_ne_pc r hr)
  have hadvance : (s.setReg k w).advance p = (s.advance p).setReg k w := State.setReg_comm s w (p + 1) hpc
  rw [deliver, deliver, hadvance]
  exact regSet_sameBut (s := s.advance p) hc hr hk d v w

/-- An instruction does the same whatever the port register holds, but for what that register holds after it. -/
theorem exec_sameBut {i : Instr} {t : State} (h : exec i s = .next t) (v : I64) :
    ∃ w, exec i (s.setReg k v) = .next (t.setReg k w) := by
  have hpc : (s.setReg k v).pc = s.pc :=
    State.setReg_reg_ne s v (hk ▸ Config.index_ne_pc hc (overwrittenPorts_ne_pc r hr))
  rw [exec_eq] at h ⊢
  rw [hpc]
  refine Run.SameBut.finishTick ((operandOf_sameBut hc hr hk i v).andThen fun a u w hu => ?_) h
  have hcfg := (operandOf_done hc hu).cfg
  exact deliver_sameBut (s := u) (hcfg ▸ hc) hr (hcfg ▸ hk) s.pc i.dst a w

end

/-- Settles O36: read and write of an instruction agree but for the port register, one after the other. -/
theorem storedPortValuesAreNeverObserved : Obligations.StoredPortValuesAreNeverObserved := by
  intro s t i r v hinv hr h
  obtain ⟨w, hw⟩ := exec_sameBut hinv.conforming hr rfl h v
  refine ⟨w, ?_⟩
  rw [State.setRole, State.setRole, (exec_keepsHistory hinv.conforming h).cfg]
  exact hw

end Sys2Proof.Machine
end

section
/-! SUPPORT. The trigger lists of a configuration: what is registered where (R113, R118), at most one operation for each
register and phase (R123), and the lists of the default map (R119). -/

namespace Sys2Proof.Config

/-! ### Lists and catalogue (R113, R118) -/

theorem mem_registrations {t : OperandTriggers} {r : Role} {ph : Phase} {op : Op} : (r, ph, op) ∈ registrations t ↔
    ∃ row ∈ catalogue t, row.op = op ∧ row.phase = ph ∧ r ∈ row.on := by
  simp only [registrations, List.mem_flatMap, List.mem_map, Prod.mk.injEq]
  constructor
  · rintro ⟨row, hrow, _, hr, rfl, rfl, rfl⟩
    exact ⟨row, hrow, rfl, rfl, hr⟩
  · rintro ⟨row, hrow, rfl, rfl, hr⟩
    exact ⟨row, hrow, r, hr, rfl, rfl, rfl⟩

theorem mem_triggers {cfg : Config} {ph : Phase} {i : Nat} {op : Op} : op ∈ cfg.triggerTables.of ph i ↔
    ∃ r, (r, ph, op) ∈ registrations cfg.operandTriggers ∧ cfg.index r = i := by
  simp only [TriggerTables.of, triggerTables_eq, List.mem_map, List.mem_filter, Bool.and_eq_true, decide_eq_true_eq]
  constructor
  · rintro ⟨_, ⟨⟨⟨r, _, _⟩, hmem, rfl⟩, rfl, rfl⟩, rfl⟩
    exact ⟨r, hmem, rfl⟩
  · rintro ⟨r, hmem, rfl⟩
    exact ⟨_, ⟨⟨_, hmem, rfl⟩, rfl, rfl⟩, rfl⟩

/-! ### One operation for each register and phase (R123) -/

section
variable {cfg : Config} (h : cfg.conforming = true) (i : Nat)
include h

/-- A read list is empty, or the one operation of the read-triggered role whose register it is. -/
theorem readTriggers_cases : cfg.readTriggers i = [] ∨
    ∃ e ∈ readers, i = cfg.index e.1 ∧ cfg.readTriggers i = [e.2] := by
  rcases read_cases cfg i with hi | hi | ⟨e, he, rfl⟩
  · exact .inl (readTriggers_eq_nil fun r _ => ((index_lt h r).trans_le hi).ne)
  · exact .inl (readTriggers_eq_nil hi.2)
  · exact .inr ⟨e, he, rfl, readTriggers_of_mem h he⟩

/-- A write list is empty, or the one operation of the write-triggered role whose register it is. -/
theorem writeTriggers_cases : cfg.writeTriggers i = [] ∨
    ∃ e ∈ writers cfg.operandTriggers, i = cfg.index e.1 ∧ cfg.writeTriggers i = [e.2] := by
  rcases write_cases cfg i with hi | hi | ⟨e, he, rfl⟩
  · exact .inl (writeTriggers_eq_nil fun r _ => ((index_lt h r).trans_le hi).ne)
  · exact .inl (writeTriggers_eq_nil hi.2)
  · exact .inr ⟨e, he, rfl, writeTriggers_of_mem h he⟩

theorem readTriggers_length_le_one : (cfg.readTriggers i).length ≤ 1 := by
  obtain hnil | ⟨e, -, -, hone⟩ := readTriggers_cases h i
  · simp [hnil]
  · simp [hone]

theorem writeTriggers_length_le_one : (cfg.writeTriggers i).length ≤ 1 := by
  obtain hnil | ⟨e, -, -, hone⟩ := writeTriggers_cases h i
  · simp [hnil]
  · simp [hone]

end

/-- No role is triggered in both phases, and the pairs of R35 of a read-triggered and a write-triggered role are
three. -/
theorem reader_mayShare_writer (t : OperandTriggers) : ∀ e ∈ readers, ∀ f ∈ writers t, e.1 ≠ f.1 ∧
    (e.1.mayShare f.1 = true →
      (e.1, f.1) ∈ [(Role.memData, Role.memCommit), (.conIn, .conOut), (.secNl, .secOut)]) := by
  cases t <;> decide

end Sys2Proof.Config

namespace Sys2Proof.Machine

open Sys2Proof

/-- Settles O55: a list's members are the registrations at its index and phase, and these are the catalogue's. -/
theorem triggerListsFollowTheCatalogue : Obligations.TriggerListsFollowTheCatalogue := by
  intro cfg i ph op
  rw [Config.mem_triggers]
  constructor
  · rintro ⟨r, hmem, hi⟩
    obtain ⟨row, hrow, hop, hph, hr⟩ := Config.mem_registrations.1 hmem
    exact ⟨row, hrow, hop, hph, r, hr, hi⟩
  · rintro ⟨row, hrow, hop, hph, r, hr, hi⟩
    exact ⟨r, Config.mem_registrations.2 ⟨row, hrow, hop, hph, hr⟩, hi⟩

/-- Settles O54: two roles with one register are one of the pairs of R35, clause 3. -/
theorem atMostOneTriggerPerPhase : Obligations.AtMostOneTriggerPerPhase := by
  intro cfg i hc
  refine ⟨Config.readTriggers_length_le_one hc i, Config.writeTriggers_length_le_one hc i, fun hread hwrite => ?_⟩
  obtain ⟨e, he, hie, -⟩ := (Config.readTriggers_cases hc i).resolve_left hread
  obtain ⟨f, hf, hif, -⟩ := (Config.writeTriggers_cases hc i).resolve_left hwrite
  obtain ⟨hne, hpairs⟩ := Config.reader_mayShare_writer _ e he f hf
  have hpair := hpairs (Config.mayShare_of_index_eq hc hne (hie.symm.trans hif))
  simp only [List.mem_cons, List.not_mem_nil, or_false, Prod.mk.injEq] at hpair
  rcases hpair with ⟨hr, hw⟩ | ⟨hr, hw⟩ | ⟨hr, hw⟩ <;> rw [hr] at hie <;> rw [hw] at hif
  · exact .inl ⟨hif, hie⟩
  · exact .inr (.inl ⟨hie, hif⟩)
  · exact .inr (.inr ⟨hie, hif⟩)

/-- Settles O56: the table is computed from the default map. -/
theorem defaultTriggerLists : Obligations.DefaultTriggerLists := by
  unfold Obligations.DefaultTriggerLists
  exact ⟨by decide, by decide⟩

end Sys2Proof.Machine
end

section
/-! SUPPORT. A MOVE to an operand register that fires (R130), and what the five binary operations then store or fault
with (R131 to R136). -/

namespace Sys2Proof.Machine

open Sys2Proof

/-! ### The firing MOVE (R130) -/

/-- Once its operand is read, a MOVE to a write-triggered register runs the register's trigger on the written state. -/
theorem exec_of_writer {s s1 : State} (hc : s.cfg.conforming = true) {i : Instr} {v : I64}
    (ho : operandOf i s = .done v s1) {e : Role × Op} (he : e ∈ Config.writers s.cfg.operandTriggers)
    (hd : i.dst = s.cfg.index e.1) : exec i s = finishTick (runTrigger .write e.2 (written s s1 i.dst v)) := by
  have hcfg : (s1.advance s.pc).cfg = s.cfg := (operandOf_done hc ho).cfg
  have hfires := regSet_fires (hcfg ▸ hc) (hcfg ▸ he) v
  rw [exec_of_operand ho, hd, ← hcfg, hfires]
  rfl

/-- The operation `op` is the one that the firing operand registers of `a` and `b` trigger (R118, R130). -/
def FiredBy (op : Op) (a b : Role) : Prop := ∀ t : OperandTriggers, ∀ r ∈ t.trig a b, (r, op) ∈ Config.writers t

theorem add_firedBy : FiredBy .add .addA .addB := fun t => by cases t <;> decide
theorem sub_firedBy : FiredBy .sub .subA .subB := fun t => by cases t <;> decide
theorem mul_firedBy : FiredBy .mul .mulA .mulB := fun t => by cases t <;> decide
theorem div_firedBy : FiredBy .div .divN .divD := fun t => by cases t <;> decide
theorem lt_firedBy : FiredBy .lt .ltA .ltB := fun t => by cases t <;> decide

/-- A MOVE to a firing operand register runs the operation on the written state. -/
theorem exec_of_fires {s s1 : State} {i : Instr} {v : I64} {d : Nat} {a b : Role} {op : Op} (h : FiredBy op a b)
    (hs : s.Inv) (hm : Moves s i v d s1) (hf : Fires s a b d) :
    exec i s = finishTick (runTrigger .write op (written s s1 d v)) := by
  obtain ⟨-, rfl, ho⟩ := hm
  obtain ⟨r, hr, hd⟩ := List.mem_map.1 hf
  exact exec_of_writer hs.conforming ho (h _ r hr) hd.symm

theorem written_cfg_of_moves {s s1 : State} {i : Instr} {v : I64} {d : Nat} (hs : s.Inv) (hm : Moves s i v d s1) :
    (written s s1 d v).cfg = s.cfg := (operandOf_done hs.conforming hm.operand).cfg

/-! ### Addition, subtraction and multiplication (R131 to R134) -/

/-- Under `Wrap` the exact result is always stored, modulo 2^64 (R131). -/
theorem narrowedInto_of_wrap {op : ArithOp} {a b r : Role} {s : State} (h : s.cfg.arithOverflow = .wrap) :
    narrowedInto op a b r s = .done () (s.setRole r (wrap64 (op.exact (s.role a) (s.role b)))) := by
  rw [narrowedInto, h, narrow_wrap]

/-- Under `Fault` a result that does not fit is not stored (R131). -/
theorem narrowedInto_of_overflow {op : ArithOp} {a b r : Role} {s : State} (h : s.cfg.arithOverflow = .fault)
    (hfit : fits64 (op.exact (s.role a) (s.role b)) = false) :
    narrowedInto op a b r s = .raised (.arithOverflow op (s.role a) (s.role b)) s := by
  rw [narrowedInto, h, narrow_fault hfit]

/-- What is stored is the exact result modulo 2^64, under either policy (R131). -/
theorem narrowedInto_done_exact {op : ArithOp} {a b r : Role} {s t : State} {u : Unit}
    (h : narrowedInto op a b r s = .done u t) : t = s.setRole r (wrap64 (op.exact (s.role a) (s.role b))) := by
  cases hfit : fits64 (op.exact (s.role a) (s.role b)) with
  | true =>
    rw [narrowedInto_of_fits rfl hfit] at h
    exact (Run.done.inj h).2.symm
  | false =>
    cases hp : s.cfg.arithOverflow with
    | wrap =>
      rw [narrowedInto_of_wrap hp] at h
      exact (Run.done.inj h).2.symm
    | fault =>
      rw [narrowedInto_of_overflow hp hfit] at h
      nomatch h

theorem fits64_iff {n : Int} : fits64 n = true ↔ -2 ^ 63 ≤ n ∧ n ≤ 2 ^ 63 - 1 := by
  simp only [fits64, Bool.and_eq_true, decide_eq_true_eq]

/-- A narrowing operation with exact result `f` meets the shared rule: its result fits, or wraps, or faults. -/
theorem narrowedRule_of_exact {op : ArithOp} {o : Op} {a b r : Role} {f : Int → Int → Int} (hfired : FiredBy o a b)
    (hrun : ∀ t, runTrigger .write o t = narrowedInto op a b r t) (hexact : ∀ x y, op.exact x y = f x.toInt y.toInt) :
    NarrowedRule op a b r f := by
  intro s i v d s1 hs hm hf t n
  have hn : op.exact (t.role a) (t.role b) = n := hexact _ _
  have hcfg : t.cfg = s.cfg := written_cfg_of_moves hs hm
  have hexec : exec i s = finishTick (narrowedInto op a b r t) :=
    (exec_of_fires hfired hs hm hf).trans (congrArg finishTick (hrun t))
  refine ⟨fun hfit => ?_, fun hfit => ⟨fun hp => ?_, fun hp => ?_⟩⟩
  · rw [hexec, narrowedInto_of_fits hn (fits64_iff.2 hfit)]
    rfl
  · rw [hexec, narrowedInto_of_wrap (hcfg ▸ hp), hn]
    rfl
  · have hover : fits64 n = false := Bool.eq_false_iff.2 fun h => hfit (fits64_iff.1 h)
    rw [hexec, narrowedInto_of_overflow (hcfg ▸ hp) (hn ▸ hover)]
    rfl

/-- Settles O27: the exact result of `ADD` is the sum. -/
theorem addStoresTheSum : Obligations.AddStoresTheSum :=
  narrowedRule_of_exact add_firedBy (fun _ => rfl) fun _ _ => rfl

/-- Settles O28: the exact result of `SUB` is the difference. -/
theorem subStoresTheDifference : Obligations.SubStoresTheDifference :=
  narrowedRule_of_exact sub_firedBy (fun _ => rfl) fun _ _ => rfl

/-- Settles O29: the exact result of `MUL` is the product. -/
theorem mulStoresTheProduct : Obligations.MulStoresTheProduct :=
  narrowedRule_of_exact mul_firedBy (fun _ => rfl) fun _ _ => rfl

/-! ### Division (R135) -/

theorem divide_zero {n d : I64} (hd : d.toInt = 0) : divide n d = .ok (n, 0) := by simp [divide, hd]

theorem divide_overflow {n d : I64} (hn : n.toInt = -2 ^ 63) (hd : d.toInt = -1) :
    divide n d = .error (.divOverflow n d) := by simp [divide, hn, hd]

/-- Short of -2^63 / -1 the truncated quotient is the library's on signed words, so it is in range. -/
theorem toInt_sdiv_of_regular {n d : I64} (hover : ¬ (n.toInt = -2 ^ 63 ∧ d.toInt = -1)) :
    (n.sdiv d).toInt = n.toInt.tdiv d.toInt := by
  refine BitVec.toInt_sdiv_of_ne_or_ne n d ?_
  by_contra! h
  obtain ⟨rfl, rfl⟩ := h
  exact hover (by decide)

/-- Apart from its two corners, the division is the library's on signed words. -/
theorem divide_regular {n d : I64} (hd : d.toInt ≠ 0) (hover : ¬ (n.toInt = -2 ^ 63 ∧ d.toInt = -1)) :
    divide n d = .ok (n.sdiv d, n.srem d) := by
  have hquot := toInt_sdiv_of_regular hover
  have hrem : n.toInt - d.toInt * (n.sdiv d).toInt = (n.srem d).toInt := by
    rw [hquot, ← Int.tmod_def, BitVec.toInt_srem]
  simp only [divide, if_neg hd, if_neg hover, ← hquot, hrem, wrap64, BitVec.ofInt_toInt]

/-- The remainder of truncating division is smaller than the divisor. -/
theorem abs_tmod_lt (n : Int) {d : Int} (hd : d ≠ 0) : |n.tmod d| < |d| := by
  rw [Int.abs_eq_natAbs, Int.abs_eq_natAbs, Int.natAbs_tmod]
  exact_mod_cast Nat.mod_lt _ (Int.natAbs_pos.2 hd)

/-- The remainder of truncating division has the sign of the dividend. -/
theorem tmod_mul_self_nonneg (n d : Int) : 0 ≤ n.tmod d * n := by
  rcases le_total 0 n with hn | hn
  · exact mul_nonneg (Int.tmod_nonneg d hn) hn
  · have hneg := Int.tmod_nonneg d (Int.neg_nonneg.2 hn)
    rw [Int.neg_tmod] at hneg
    exact mul_nonneg_of_nonpos_of_nonpos (Int.neg_nonneg.1 hneg) hn

theorem opDiv_of_ok {s : State} {q r : I64} (h : divide (s.role .divN) (s.role .divD) = .ok (q, r)) :
    opDiv s = .done () ((s.setRole .divQ q).setRole .divRem r) := by rw [opDiv, h]

theorem opDiv_of_error {s : State} {c : FaultCause} (h : divide (s.role .divN) (s.role .divD) = .error c) :
    opDiv s = .raised c s := by rw [opDiv, h]

/-- Settles O30: the cases of the division, whose regular one has the library's quotient and remainder. -/
theorem divStoresQuotientAndRemainder : Obligations.DivStoresQuotientAndRemainder := by
  intro s i v d s1 hs hm hf t n m
  have hexec : exec i s = finishTick (opDiv t) := exec_of_fires div_firedBy hs hm hf
  refine ⟨fun hzero => ?_, fun ⟨hn, hm1⟩ => ?_, fun hzero hover => ?_⟩
  · rw [hexec, opDiv_of_ok (divide_zero hzero)]
    rfl
  · rw [hexec, opDiv_of_error (divide_overflow hn hm1)]
    rfl
  · refine ⟨n.sdiv m, n.srem m, ?_, ?_, ?_, ?_⟩
    · rw [hexec, opDiv_of_ok (divide_regular hzero hover)]
      rfl
    · rw [toInt_sdiv_of_regular hover, BitVec.toInt_srem]
      exact Int.tdiv_mul_add_tmod _ _
    · rw [BitVec.toInt_srem]
      exact abs_tmod_lt _ hzero
    · rw [BitVec.toInt_srem]
      exact tmod_mul_self_nonneg _ _

/-! ### Comparison (R136) -/

/-- Settles O31: the trigger `LT` runs on the written state. -/
theorem lessThanStoresOneOrZero : Obligations.LessThanStoresOneOrZero := by
  intro s i v d s1 hs hm hf
  exact exec_of_fires lt_firedBy hs hm hf

end Sys2Proof.Machine
end

section
/-! SUPPORT. A run under `ARITH_OVERFLOW = Fault` and under `Wrap` (R131, D3): every meaning that raises no overflow
fault commutes with putting the policy `Wrap` in place. -/

namespace Sys2Proof.Machine

open Sys2Proof

/-! ### The state under `Wrap` -/

section
variable (s : State)

@[simp] theorem State.wrapping_role (r : Role) : s.wrapping.role r = s.role r := rfl
@[simp] theorem State.wrapping_pc : s.wrapping.pc = s.pc := rfl
@[simp] theorem State.wrapping_nreg : s.wrapping.cfg.nreg = s.cfg.nreg := rfl
@[simp] theorem State.wrapping_arithOverflow : s.wrapping.cfg.arithOverflow = .wrap := rfl
@[simp] theorem State.wrapping_readTriggers (i : Nat) : s.wrapping.cfg.readTriggers i = s.cfg.readTriggers i := rfl
@[simp] theorem State.wrapping_writeTriggers (i : Nat) : s.wrapping.cfg.writeTriggers i = s.cfg.writeTriggers i := rfl
@[simp] theorem State.wrapping_fetch : s.wrapping.fetch = s.fetch := rfl

theorem State.poll_wrapping : s.wrapping.poll = s.poll.wrapping := by
  obtain ⟨_, _, _, _, _, _, inputs, _⟩ := s
  cases inputs <;> rfl

end

/-! ### Results without an overflow fault -/

/-- The result is no overflow fault (R225). -/
def Run.OverflowFree {α : Type} (x : Run α) : Prop := ∀ op a b t, x ≠ .raised (.arithOverflow op a b) t

/-- Unless `x` is an overflow fault, `y` is `x` with its state under `Wrap`. -/
def Run.WrapsTo {α : Type} (x y : Run α) : Prop := x.OverflowFree → y = x.mapState State.wrapping

theorem Run.WrapsTo.of_eq {α : Type} {x y : Run α} (h : y = x.mapState State.wrapping) : x.WrapsTo y := fun _ => h

theorem Run.WrapsTo.andThen {α β : Type} {x y : Run α} {f g : α → State → Run β} (h : x.WrapsTo y)
    (hfg : ∀ a t, (f a t).WrapsTo (g a t.wrapping)) : (x.andThen f).WrapsTo (y.andThen g) := by
  intro hfree
  cases x with
  | done a t =>
    rw [h fun _ _ _ _ => nofun]
    exact hfg a t hfree
  | raised c t =>
    rw [h fun op a b u hc => hfree op a b u (by cases hc; rfl)]
    rfl

/-! ### The operations of the catalogue -/

section
variable (s : State)

/-- The one operation that reads the policy: a result that fits is stored under either, and one that does not is an
overflow fault unless the policy is already `Wrap`. -/
theorem narrowedInto_wrapsTo (op : ArithOp) (a b r : Role) :
    (narrowedInto op a b r s).WrapsTo (narrowedInto op a b r s.wrapping) := by
  intro hfree
  cases hx : narrowedInto op a b r s with
  | raised c t =>
    obtain ⟨-, -, -, rfl⟩ := narrowedInto_raised hx
    exact absurd hx (hfree _ _ _ _)
  | done u t =>
    have hstore : t = s.setRole r (wrap64 (op.exact (s.role a) (s.role b))) := narrowedInto_done_exact hx
    subst hstore
    exact narrowedInto_of_wrap s.wrapping_arithOverflow

theorem opDiv_wrapping : opDiv s.wrapping = (opDiv s).mapState State.wrapping := by
  simp only [opDiv, State.wrapping_role]
  split <;> rfl

theorem emitChar_wrapping (port : Port) (v : I64) :
    emitChar port v s.wrapping = (emitChar port v s).mapState State.wrapping := by
  simp only [emitChar]
  split <;> rfl

theorem opConOut_wrapping : opConOut s.wrapping = (opConOut s).mapState State.wrapping := by
  have hclear : s.wrapping.cfg.clearCode = s.cfg.clearCode := rfl
  simp only [opConOut, hclear, State.wrapping_role, emitChar_wrapping]
  split <;> rfl

theorem opConIn_wrapping : opConIn s.wrapping = (opConIn s).mapState State.wrapping := by
  rw [opConIn, State.poll_wrapping]
  rfl

theorem checkedPair_wrapping : checkedPair s.wrapping = checkedPair s := rfl

theorem opMemStore_wrapping : opMemStore s.wrapping = (opMemStore s).mapState State.wrapping := by
  simp only [opMemStore, checkedPair_wrapping]
  split <;> rfl

theorem opMemLoad_wrapping : opMemLoad s.wrapping = (opMemLoad s).mapState State.wrapping := by
  simp only [opMemLoad, checkedPair_wrapping]
  split <;> rfl

theorem runTrigger_wrapsTo (ph : Phase) (op : Op) : (runTrigger ph op s).WrapsTo (runTrigger ph op s.wrapping) := by
  cases op with
  | add | sub | mul => exact narrowedInto_wrapsTo s _ _ _ _
  | div => exact .of_eq (opDiv_wrapping s)
  | conOut => exact .of_eq (opConOut_wrapping s)
  | conIn => exact .of_eq (opConIn_wrapping s)
  | secOut => exact .of_eq (emitChar_wrapping s _ _)
  | memStore => exact .of_eq (opMemStore_wrapping s)
  | memLoad => exact .of_eq (opMemLoad_wrapping s)
  | lt | sel | secNl => exact .of_eq rfl

/-! ### The tick -/

theorem runTriggers_wrapsTo (ph : Phase) (ops : List Op) :
    (runTriggers ph ops s).WrapsTo (runTriggers ph ops s.wrapping) := by
  induction ops generalizing s with
  | nil => exact .of_eq rfl
  | cons op rest ih => exact (runTrigger_wrapsTo s ph op).andThen fun _ t => ih t

theorem regGet_wrapsTo (i : Nat) : (regGet i s).WrapsTo (regGet i s.wrapping) := by
  by_cases hi : s.cfg.nreg ≤ i
  · rw [regGet_out hi, regGet_out (s := s.wrapping) hi]
    exact .of_eq rfl
  · rw [regGet, regGet, if_neg hi, if_neg (by simpa using hi), State.wrapping_readTriggers]
    exact (runTriggers_wrapsTo s .read _).andThen fun _ _ => .of_eq rfl

theorem regSet_wrapsTo (d : Nat) (v : I64) : (regSet d v s).WrapsTo (regSet d v s.wrapping) := by
  by_cases hd : s.cfg.nreg ≤ d
  · rw [regSet_out hd, regSet_out (s := s.wrapping) hd]
    exact .of_eq rfl
  · rw [regSet, regSet, if_neg hd, if_neg (by simpa using hd), State.wrapping_writeTriggers]
    exact runTriggers_wrapsTo (s.setReg d v) .write _

theorem operandOf_wrapsTo (i : Instr) : (operandOf i s).WrapsTo (operandOf i s.wrapping) := by
  cases i with
  | movImm => exact .of_eq rfl
  | movReg r => exact regGet_wrapsTo s r

end

/-- The state records no overflow fault (R225). -/
def State.NoOverflow (s : State) : Prop := ∀ op a b, s.status ≠ .faulted (.arithOverflow op a b)

/-- The end of a tick passes the policy on. -/
theorem finishTick_wrapping {x y : Run Unit} {t : State} (h : x.WrapsTo y) (hx : finishTick x = .next t)
    (ht : t.NoOverflow) : finishTick y = .next t.wrapping := by
  cases x with
  | done a u =>
    obtain rfl := Host.Outcome.next.inj hx
    rw [h fun _ _ _ _ => nofun]
    rfl
  | raised c u =>
    obtain rfl := Host.Outcome.next.inj hx
    rw [h fun op a b _ hc => ht op a b (by cases hc; rfl)]
    rfl

theorem exec_wrapping {s t : State} {i : Instr} (h : exec i s = .next t) (ht : t.NoOverflow) :
    exec i s.wrapping = .next t.wrapping := by
  rw [exec_eq] at h ⊢
  rw [State.wrapping_pc]
  exact finishTick_wrapping ((operandOf_wrapsTo s i).andThen fun v u => regSet_wrapsTo (u.advance s.pc) i.dst v) h ht

theorem step_wrapping {s t : State} (h : step s = .next t) (ht : t.NoOverflow) :
    step s.wrapping = .next t.wrapping := by
  obtain ⟨hr, hc, ⟨hp, rfl⟩ | ⟨hp, he⟩⟩ := step_cases h
  · exact step_halts (s := s.wrapping) hr hc hp
  · rw [step_running (s := s.wrapping) hr hc hp, State.wrapping_fetch]
    exact exec_wrapping he ht

/-- A run that ends without an overflow fault has taken none before its end: a fault would have ended it. -/
theorem noOverflow_of_run {s t : State} {n : Nat} (h : run n s = .next t) (ht : t.NoOverflow) : s.NoOverflow := by
  intro op a b hs
  obtain ⟨-, rfl⟩ := run_ended (by rw [hs]; nofun) h
  exact ht op a b hs

/-- Settles O32, by induction on the number of steps: each step that takes no overflow fault is the step under
`Wrap`. -/
theorem wrapAgreesWhereNothingOverflows : Obligations.WrapAgreesWhereNothingOverflows := by
  rintro n s t - h ht
  induction n generalizing s with
  | zero =>
    obtain rfl := Host.Outcome.next.inj h
    rfl
  | succ n ih =>
    obtain ⟨u, hu, hrun⟩ := run_succ_cases h
    rw [run_succ_next (step_wrapping hu (noOverflow_of_run hrun ht))]
    exact ih u hrun

end Sys2Proof.Machine
end

section
/-! SUPPORT. A MOVE from a register whose read stores in it first (R112, R116), and the select (R150). -/

namespace Sys2Proof.Machine

open Sys2Proof

/-- A MOVE whose destination only stores leaves the written state, with the tick counted. -/
theorem exec_of_writeOnlyStores {s s1 : State} (hs : s.Inv) {i : Instr} {v : I64} (ho : operandOf i s = .done v s1)
    (hd : s.cfg.WriteOnlyStores i.dst) : exec i s = .next (written s s1 i.dst v).countTick := by
  have hcfg : (s1.advance s.pc).cfg = s.cfg := (operandOf_done hs.conforming ho).cfg
  rw [exec_of_operand ho, regSet_stores (by rwa [hcfg])]
  rfl

/-- How the operand of a MOVE from a role is read fixes what the MOVE does where its destination only stores. -/
theorem readsAs_of_operand {s s1 : State} (hs : s.Inv) {r : Role} {v : I64}
    (ho : ∀ d, operandOf (.movReg (s.cfg.index r) d) s = .done v s1) : ReadsAs s r v s1 :=
  fun d => ⟨ho d, exec_of_writeOnlyStores hs (ho d)⟩

/-- Settles O35: the read-trigger `SEL` stores the selected operand in `SEL_R`, which is then the operand read. -/
theorem selectIsEvaluatedOnRead : Obligations.SelectIsEvaluatedOnRead :=
  fun _ hs => readsAs_of_operand hs (operandOf_selR hs)

end Sys2Proof.Machine
end

section
/-! SUPPORT. The console and the secondary port: what a MOVE to an output port emits (R161, R162, R164), what a read of
`CON_IN` or `SEC_NL` gives (R163, R165), and when the host is called at all (R166, R168). -/

namespace Sys2Proof.Machine

open Sys2Proof

/-! ### Output (R161, R162, R164) -/

theorem emitChar_of_isChar {v : I64} (h : IsChar v) (port : Port) (s : State) :
    emitChar port v s = .done () (s.emit (.char port v.toInt.toNat)) := if_pos (validChar_iff.2 h)

theorem emitChar_of_not_isChar {v : I64} (h : ¬ IsChar v) (port : Port) (s : State) :
    emitChar port v s = .raised (.badChar port v) s := if_neg fun hv => h (validChar_iff.1 hv)

theorem opConOut_of_clear {s : State} (h : s.role .conOut = s.cfg.clearCode) :
    opConOut s = .done () (s.emit .clear) := if_pos h

theorem opConOut_of_ne {s : State} (h : s.role .conOut ≠ s.cfg.clearCode) :
    opConOut s = emitChar .primary (s.role .conOut) s := if_neg h

/-- `CONOUT` is registered on `CON_OUT` under both operand trigger settings (R118). -/
theorem conOut_mem_writers (t : OperandTriggers) : (Role.conOut, Op.conOut) ∈ Config.writers t := by
  cases t <;> decide

/-- `SECOUT` is registered on `SEC_OUT` under both operand trigger settings (R118). -/
theorem secOut_mem_writers (t : OperandTriggers) : (Role.secOut, Op.secOut) ∈ Config.writers t := by
  cases t <;> decide

section
variable {s s1 : State} {i : Instr} {v : I64} (hs : s.Inv)
include hs

/-- A MOVE to a write-triggered role runs the role's trigger on the written state, where the role holds the operand. -/
theorem exec_of_moves_writer {e : Role × Op} (he : e ∈ Config.writers s.cfg.operandTriggers)
    (hm : Moves s i v (s.cfg.index e.1) s1) :
    exec i s = finishTick (runTrigger .write e.2 (written s s1 (s.cfg.index e.1) v)) := by
  rw [← hm.dst]
  exact exec_of_writer hs.conforming hm.operand he hm.dst

theorem written_role_of_moves {r : Role} (hm : Moves s i v (s.cfg.index r) s1) :
    (written s s1 (s.cfg.index r) v).role r = v := by
  have hk := operandOf_done hs.conforming hm.operand
  rw [State.role, written_cfg, hk.cfg]
  exact written_reg_self hs hk (Config.index_lt hs.conforming r) v

end

/-- Settles O37: the trigger `CONOUT` runs on the written state, where `CON_OUT` holds the operand. -/
theorem consoleOutputEmits : Obligations.ConsoleOutputEmits := by
  intro s i v s1 hs hm t
  have hrole : t.role .conOut = v := written_role_of_moves hs hm
  have hcfg : t.cfg = s.cfg := written_cfg_of_moves hs hm
  have hexec : exec i s = finishTick (opConOut t) := exec_of_moves_writer hs (conOut_mem_writers _) hm
  have hchar : v ≠ s.cfg.clearCode → opConOut t = emitChar .primary v t := fun hne => by
    rw [opConOut_of_ne (by rwa [hrole, hcfg]), hrole]
  refine ⟨fun hclear => ?_, fun hne hv => ?_, fun hne hv => ?_⟩
  · rw [hexec, opConOut_of_clear (by rw [hrole, hcfg, hclear])]
    rfl
  · rw [hexec, hchar hne, emitChar_of_isChar hv]
    rfl
  · rw [hexec, hchar hne, emitChar_of_not_isChar hv]
    rfl

/-- Settles O39: the trigger `SECOUT` runs on the written state, where `SEC_OUT` holds the operand. -/
theorem secondaryOutputEmits : Obligations.SecondaryOutputEmits := by
  intro s i v s1 hs hm t
  have hrole : t.role .secOut = v := written_role_of_moves hs hm
  have hexec : exec i s = finishTick (opSecOut t) := exec_of_moves_writer hs (secOut_mem_writers _) hm
  have hchar : opSecOut t = emitChar .secondary v t := by rw [opSecOut, hrole]
  refine ⟨fun hv => ?_, fun hv => ?_⟩
  · rw [hexec, hchar, emitChar_of_isChar hv]
    rfl
  · rw [hexec, hchar, emitChar_of_not_isChar hv]
    rfl

/-! ### Input (R163, R165) -/

/-- Settles O40: the read-trigger `SECNL` stores the code in `SEC_NL`, which is then the operand read. -/
theorem secondaryNewlineYieldsTheCode : Obligations.SecondaryNewlineYieldsTheCode :=
  fun _ hs => readsAs_of_operand hs (operandOf_movReg_fires hs (e := (.secNl, .secNl)) (by decide) rfl)

/-- A byte is zero-extended (R163). -/
theorem answerValue_some_toInt (b : Byte) : (answerValue (some b)).toInt = (b.toNat : Int) := by
  have hb : b.toNat < 2 ^ 8 := b.isLt
  have hn : (b.setWidth 64).toNat = b.toNat := BitVec.toNat_setWidth_of_le (by decide)
  rw [answerValue, BitVec.toInt_eq_toNat_of_lt (by omega), hn]

theorem State.nextAnswer_of_cons {s : State} {a : Option Byte} {rest : List (Option Byte)}
    (h : s.inputs = a :: rest) : s.nextAnswer = a := by rw [State.nextAnswer, h]

theorem State.nextAnswer_of_nil {s : State} (h : s.inputs = []) : s.nextAnswer = Config.hostAnswer s.freeDraws := by
  rw [State.nextAnswer, h]

theorem State.poll_of_cons {s : State} {a : Option Byte} {rest : List (Option Byte)} (h : s.inputs = a :: rest) :
    s.poll = { s with inputs := rest, trace := s.trace ++ [.poll a] } := by
  rw [State.poll, State.nextAnswer_of_cons h, State.drawAnswer, h]

theorem State.poll_of_nil {s : State} (h : s.inputs = []) :
    s.poll = { s with freeDraws := s.freeDraws + 1, trace := s.trace ++ [.poll s.nextAnswer] } := by
  rw [State.poll, State.drawAnswer, h]

/-- The operand of a MOVE from `CON_IN` (R163). -/
theorem operandOf_conIn {s : State} (hs : s.Inv) (d : Nat) : operandOf (.movReg (s.cfg.index .conIn) d) s =
    .done (answerValue s.nextAnswer) (s.poll.setRole .conIn (answerValue s.nextAnswer)) := by
  have hread : (s.poll.setRole .conIn (answerValue s.nextAnswer)).reg (s.cfg.index .conIn) =
      answerValue s.nextAnswer := by
    rw [State.setRole, State.poll_cfg]
    exact State.setReg_reg_self _ _ (by rw [State.poll_regs]; exact hs.index_lt_length .conIn)
  have hget := regGet_fires hs.conforming (e := (.conIn, .conIn)) (by decide)
  exact hget.trans (congrArg (Run.done · _) hread)

/-- Settles O38: the read-trigger `CONIN` stores the answer's value after the poll, which is then the operand read. -/
theorem consoleInputPolls : Obligations.ConsoleInputPolls := by
  intro s hs
  refine ⟨answerValue s.nextAnswer, s.poll, readsAs_of_operand hs (operandOf_conIn hs), ?_,
    fun a rest h => ⟨State.nextAnswer_of_cons h, State.poll_of_cons h⟩,
    fun h => ⟨State.nextAnswer_of_nil h, State.poll_of_nil h⟩⟩
  cases s.nextAnswer with
  | none => rfl
  | some b => exact answerValue_some_toInt b

/-! ### Calls of the host (R166, R168) -/

theorem answersOf_append (xs ys : List Event) : answersOf (xs ++ ys) = answersOf xs ++ answersOf ys := by
  induction xs with
  | nil => rfl
  | cons e xs ih => cases e <;> simp [answersOf, ih]

theorem outputsOf_append (xs ys : List Event) : outputsOf (xs ++ ys) = outputsOf xs ++ outputsOf ys := by
  induction xs with
  | nil => rfl
  | cons e xs ih => cases e <;> simp [outputsOf, ih]

@[simp] theorem answersOf_map_emit (os : List Output) : answersOf (os.map .emit) = [] := by
  induction os with
  | nil => rfl
  | cons o os ih => exact ih

@[simp] theorem outputsOf_map_emit (os : List Output) : outputsOf (os.map .emit) = os := by
  induction os with
  | nil => rfl
  | cons o os ih => exact congrArg (o :: ·) ih

/-- Between `s` and `t` the host was handed the events `os`, in order, and was not polled. -/
structure Emits (s t : State) (os : List Output) : Prop where
  trace : t.trace = s.trace ++ os.map .emit
  inputs : t.inputs = s.inputs
  freeDraws : t.freeDraws = s.freeDraws

namespace Emits

variable {s t u : State} {os : List Output}

/-- The fields of the host's capability agree: it was not called. -/
theorem of_eq (htrace : t.trace = s.trace) (hin : t.inputs = s.inputs) (hfree : t.freeDraws = s.freeDraws) :
    Emits s t [] := ⟨by simpa using htrace, hin, hfree⟩

theorem trans (h : Emits s t []) (h' : Emits t u os) : Emits s u os where
  trace := by rw [h'.trace, h.trace, List.map_nil, List.append_nil]
  inputs := h'.inputs.trans h.inputs
  freeDraws := h'.freeDraws.trans h.freeDraws

theorem answers (h : Emits s t os) : answersOf t.trace = answersOf s.trace := by
  rw [h.trace, answersOf_append, answersOf_map_emit, List.append_nil]

theorem outputs (h : Emits s t os) : outputsOf t.trace = outputsOf s.trace ++ os := by
  rw [h.trace, outputsOf_append, outputsOf_map_emit]

end Emits

theorem State.poll_answers (s : State) : answersOf s.poll.trace = answersOf s.trace ++ [s.nextAnswer] :=
  answersOf_append s.trace [.poll s.nextAnswer]

theorem State.poll_outputs (s : State) : outputsOf s.poll.trace = outputsOf s.trace := by
  rw [State.poll_trace, outputsOf_append]
  exact List.append_nil _

/-- Of the read-triggers, only that of `CON_IN` polls, and none emits (R118). -/
theorem reader_calls : ∀ e ∈ Config.readers,
    (e.2 = .conIn → e.1 = .conIn) ∧ e.2 ≠ .conOut ∧ e.2 ≠ .secOut := by decide

/-- No write-trigger polls, and only those of the output ports emit (R118). -/
theorem writer_calls (t : OperandTriggers) : ∀ e ∈ Config.writers t,
    e.2 ≠ .conIn ∧ (e.2 = .conOut → e.1 = .conOut) ∧ (e.2 = .secOut → e.1 = .secOut) := by
  cases t <;> decide

/-- The events that a write of register `d` may emit: at most one, and none unless `d` is of an output port. -/
def PortEvents (cfg : Config) (d : Nat) (os : List Output) : Prop :=
  os.length ≤ 1 ∧ (d ≠ cfg.index .conOut → d ≠ cfg.index .secOut → os = [])

theorem PortEvents.nil (cfg : Config) (d : Nat) : PortEvents cfg d [] := ⟨Nat.zero_le 1, fun _ _ => rfl⟩

/-- What the instruction `i` has called the host for between `s` and `t`: a poll first if its source is `CON_IN`, and
then the events `os`. -/
def CallsHost (s : State) (i : Instr) (t : State) (os : List Output) : Prop :=
  (SourceIs s.cfg i .conIn ∧ Emits s.poll t os) ∨ (¬ SourceIs s.cfg i .conIn ∧ Emits s t os)

theorem CallsHost.trans_emits {s t u : State} {i : Instr} {os : List Output} (h : CallsHost s i t [])
    (h' : Emits t u os) : CallsHost s i u os :=
  h.imp (fun ⟨hi, ht⟩ => ⟨hi, ht.trans h'⟩) fun ⟨hi, ht⟩ => ⟨hi, ht.trans h'⟩

theorem CallsHost.outputs {s t : State} {i : Instr} {os : List Output} (h : CallsHost s i t os) :
    outputsOf t.trace = outputsOf s.trace ++ os := by
  rcases h with ⟨-, ht⟩ | ⟨-, ht⟩
  · rw [ht.outputs, State.poll_outputs]
  · exact ht.outputs

section
variable {s t : State} {i : Instr} {v : I64}

/-- Reading the operand calls the host for a poll if the source is `CON_IN`, and for nothing else. -/
theorem operandOf_callsHost (hs : s.Inv) (h : operandOf i s = .done v t) : CallsHost s i t [] := by
  by_cases hi : SourceIs s.cfg i .conIn
  · obtain ⟨d, rfl⟩ := hi
    obtain ⟨-, rfl⟩ := Run.done.inj ((operandOf_conIn hs d).symm.trans h)
    exact .inl ⟨⟨d, rfl⟩, .of_eq rfl rfl rfl⟩
  · refine .inr ⟨hi, ?_⟩
    rcases operandOf_cases hs.conforming h with ⟨rfl, -⟩ | ⟨e, he, d, rfl, hr⟩
    · exact .of_eq rfl rfl rfl
    · obtain ⟨hpoll, hconOut, hsecOut⟩ := reader_calls e he
      have hne : e.2 ≠ .conIn := fun hop => hi ⟨d, by rw [hpoll hop]⟩
      obtain ⟨hin, hfree, os, htrace, -, hsilent⟩ := (runTrigger_host hr).1 hne
      obtain rfl := hsilent hconOut hsecOut
      exact ⟨htrace, hin, hfree⟩

/-- A read of `CON_IN` does not fault (R163). -/
theorem not_sourceIs_conIn_of_raised (hs : s.Inv) {c : FaultCause} (h : operandOf i s = .raised c t) :
    ¬ SourceIs s.cfg i .conIn := by
  rintro ⟨d, rfl⟩
  nomatch (operandOf_conIn hs d).symm.trans h

/-- A completed write hands the host the events of its register and does not poll. -/
theorem regSet_emits (hc : s.cfg.conforming = true) {d : Nat} (h : regSet d v s = .done () t) :
    ∃ os, Emits s t os ∧ PortEvents s.cfg d os := by
  rcases regSet_cases hc h with ⟨rfl, -⟩ | ⟨e, he, rfl, hr⟩
  · exact ⟨[], .of_eq rfl rfl rfl, .nil _ _⟩
  · obtain ⟨hpoll, hconOut, hsecOut⟩ := writer_calls _ e he
    obtain ⟨hin, hfree, os, htrace, hlen, hsilent⟩ := (runTrigger_host hr).1 hpoll
    exact ⟨os, ⟨htrace, hin, hfree⟩, hlen, fun hneCon hneSec =>
      hsilent (fun hop => hneCon (by rw [hconOut hop])) (fun hop => hneSec (by rw [hsecOut hop]))⟩

/-- What an instruction calls the host for, completed or faulted: the poll of its operand's read and the event of its
destination's write. -/
theorem exec_callsHost (hs : s.Inv) (h : exec i s = .next t) :
    ∃ os, CallsHost s i t os ∧ PortEvents s.cfg i.dst os := by
  rcases exec_cases hs.conforming h with ⟨c, ho, rfl, -⟩ | ⟨v, s1, ho, -, -, rfl⟩ | ⟨v, s1, c, ho, -, -, -, rfl, -⟩ |
    ⟨v, s1, u, ho, hk, -, hu, -, rfl⟩
  · exact ⟨[], .inr ⟨not_sourceIs_conIn_of_raised hs ho, .of_eq rfl rfl rfl⟩, .nil _ _⟩
  · exact ⟨[], (operandOf_callsHost hs ho).trans_emits (.of_eq rfl rfl rfl), .nil _ _⟩
  · exact ⟨[], (operandOf_callsHost hs ho).trans_emits (.of_eq rfl rfl rfl), .nil _ _⟩
  · have hcfg : (s1.advance s.pc).cfg = s.cfg := hk.cfg
    obtain ⟨os, hemits, hport⟩ := regSet_emits (hcfg ▸ hs.conforming) hu
    have hend : Emits s1 u.countTick os := ⟨hemits.trace, hemits.inputs, hemits.freeDraws⟩
    exact ⟨os, (operandOf_callsHost hs ho).trans_emits hend, hcfg ▸ hport⟩

end

/-- Settles O49: an instruction's calls of the host are a poll exactly where its source is `CON_IN`, then its events. -/
theorem pollsHappenOnlyOnConsoleReads : Obligations.PollsHappenOnlyOnConsoleReads := by
  intro s t i hs h
  obtain ⟨os, ⟨hi, ht⟩ | ⟨hi, ht⟩, -⟩ := exec_callsHost hs h
  · refine ⟨fun _ => ⟨ht.answers.trans s.poll_answers, ?_⟩, fun hn => absurd hi hn⟩
    rw [ht.inputs, State.poll_inputs, State.drawAnswer_inputs]
  · exact ⟨fun hp => absurd hp hi, fun _ => ⟨ht.answers, ht.inputs, ht.freeDraws⟩⟩

/-- Settles O50: the events of an instruction's calls of the host are those of its destination's write. -/
theorem outputHappensOnlyOnPortWrites : Obligations.OutputHappensOnlyOnPortWrites := by
  intro s t i hs h
  obtain ⟨os, hcalls, hlen, hsilent⟩ := exec_callsHost hs h
  exact ⟨os, hcalls.outputs, hlen, hsilent⟩

end Sys2Proof.Machine
end

section
/-! SUPPORT. The memory port: what a MOVE to `MEM_COMMIT` stores (R182, R184), what a MOVE from `MEM_DATA` reads (R183),
and that a load gives what the store of its pair left (R186). -/

namespace Sys2Proof.Machine

open Sys2Proof

/-! ### Stores (R181, R182, R184) -/

/-- Settles O42: the two outcomes of the address check on the written state. -/
theorem commitStoresTheDataRegister : Obligations.CommitStoresTheDataRegister := by
  intro s i v s1 hs hm t
  refine ⟨fun a haddr ha => ?_, fun hbad => ?_⟩
  · exact exec_commit_stores hs.conforming hm.dst hm.operand rfl (pairIndex_of_valid haddr (by omega))
  · exact exec_commit_faults hs.conforming hm.dst hm.operand rfl (pairIndex_eq_none.2 hbad)

/-- Settles O46: under the alias the MOVE's own write put the operand in `MEM_DATA`, which the trigger then stores. -/
theorem aliasedCommitStoresTheOperand : Obligations.AliasedCommitStoresTheOperand := by
  intro s i v s1 a hs halias hm t haddr ha
  have hdata : t.role .memData = v := written_role_of_moves hs hm
  have hstore := exec_commit_stores hs.conforming (hm.dst.trans halias.symm) hm.operand
    (congrArg (written s s1 · v) halias) (pairIndex_of_valid haddr (by omega))
  rwa [hdata] at hstore

/-! ### Loads (R181, R183) -/

theorem opMemLoad_of_none {s : State} (h : pairIndex s.cfg.cap (s.role .memAddr) = none) :
    opMemLoad s = .raised (.badMemAddress (s.role .memAddr)) s := by
  simp [opMemLoad, checkedPair, h]

/-- The operand of a MOVE from `MEM_DATA` at an address that names no pair (R183). -/
theorem operandOf_memData_raised {s : State} (hs : s.Inv) (ha : pairIndex s.cfg.cap (s.role .memAddr) = none)
    (d : Nat) : operandOf (.movReg (s.cfg.index .memData) d) s = .raised (.badMemAddress (s.role .memAddr)) s := by
  have hget := regGet_fires hs.conforming (e := (.memData, .memLoad)) (by decide)
  rw [runTrigger, opMemLoad_of_none ha] at hget
  exact hget

/-- Settles O43: the read-trigger `MEMLOAD` leaves the pair in `MEM_DATA`, or raises its fault before anything is
written. -/
theorem dataReadLoadsThePair : Obligations.DataReadLoadsThePair := by
  intro s hs
  refine ⟨fun a haddr ha => ?_, fun hbad d => ?_⟩
  · exact ⟨s.loadDouble a, s.loadDouble_toNat a,
      readsAs_of_operand hs (operandOf_memData hs (pairIndex_of_valid haddr (by omega)))⟩
  · exact exec_of_operand_raised (operandOf_memData_raised hs (pairIndex_eq_none.2 hbad) d)

/-! ### A store, then a load (R186) -/

/-- A pair's value depends on its two words alone (R65). -/
theorem State.loadDouble_congr {s t : State} {a : Nat} (hhigh : t.word (2 * a) = s.word (2 * a))
    (hlow : t.word (2 * a + 1) = s.word (2 * a + 1)) : t.loadDouble a = s.loadDouble a := by
  rw [State.loadDouble, State.loadDouble, hhigh, hlow]

/-- Memory is canonical in the written state. -/
theorem written_memory_wf {s s1 : State} (hs : s.Inv) {i : Instr} {v : I64} {d : Nat} (hm : Moves s i v d s1) :
    (written s s1 d v).mem.wf (written s s1 d v).cfg.memInit (written s s1 d v).cfg.cap = true := by
  rw [written_cfg_of_moves hs hm]
  exact (operandOf_done hs.conforming hm.operand).memory hs.memory

/-- Settles O44: the later load reads the pair's two words, which are still those of the stored value. -/
theorem storeThenLoadGivesTheValue : Obligations.StoreThenLoadGivesTheValue := by
  intro s i x s1 t u a hs hm haddr ha hexec hu hcfg huaddr hhigh hlow d
  have hcap : 2 * a + 1 < s.cfg.cap := by omega
  have hstore := exec_commit_stores hs.conforming hm.dst hm.operand rfl (pairIndex_of_valid haddr hcap)
  obtain rfl := Host.Outcome.next.inj (hstore.symm.trans hexec)
  have hload : u.loadDouble a = (written s s1 (s.cfg.index .memCommit) x).role .memData :=
    (State.loadDouble_congr hhigh hlow).trans
      (State.storeDouble_loadDouble (written_memory_wf hs hm) (by rwa [written_cfg_of_moves hs hm]) _)
  have hread := operandOf_memData hu (pairIndex_of_valid huaddr (by rwa [hcfg])) d
  rw [hcfg, hload] at hread
  exact ⟨_, hread⟩

end Sys2Proof.Machine
end

section
/-! SUPPORT. The interpreter loop (R195): which word a step fetches and when it halts, what a tick does to the tick
count and the counter (R201, R203), and the MOVEs that only store (R199, R200, R204). -/

namespace Sys2Proof.Machine

open Sys2Proof

/-! ### Fetch and halt (R195, R197, R198) -/

theorem State.pcInRange_iff {s : State} : s.pcInRange = true ↔ 0 ≤ s.pc.toInt ∧ s.pc.toInt < s.cfg.cap := by
  simp only [State.pcInRange, Bool.and_eq_true, decide_eq_true_eq]

/-- With the counter in memory a step executes the word there (R195, R198). -/
theorem step_at_pc {s : State} (hr : s.status = .running) (hc : s.cfg.conforming = true) (h0 : 0 ≤ s.pc.toInt)
    (h1 : s.pc.toInt < s.cfg.cap) : step s = exec (decode (s.word s.pc.toInt.toNat)) s :=
  step_running hr hc (State.pcInRange_iff.2 ⟨h0, h1⟩)

/-- Settles O11: the fetch splits the word at the counter into the fields that decoding takes of it. -/
theorem stepRunsTheDecodedWord : Obligations.StepRunsTheDecodedWord := fun _ => step_at_pc

theorem step_halts_outside {s : State} (hr : s.status = .running) (hc : s.cfg.conforming = true)
    (h : ¬ (0 ≤ s.pc.toInt ∧ s.pc.toInt < s.cfg.cap)) : step s = .next s.halt :=
  step_halts hr hc (Bool.eq_false_iff.2 (mt State.pcInRange_iff.1 h))

/-- Settles O13: such a counter fails the halt test of R197. -/
theorem counterOutsideMemoryHalts : Obligations.CounterOutsideMemoryHalts :=
  fun _ hr hc hp => step_halts_outside hr hc (by omega)

/-- A word, as the table numbers it, is the word itself (R60). -/
theorem tableWord_toNat (w : Word) : tableWord 32 w.toNat = w := by
  rw [tableWord, Nat.mod_eq_of_lt w.isLt, BitVec.ofNat_toNat, BitVec.setWidth_eq]

/-- Placing an instruction stores its word at the counter. -/
theorem State.withFetchWord_encode {s : State} (hp : s.pcInRange = true) (i : Instr) :
    s.withFetchWord 32 (encode i).toNat = s.setWord s.pcIndex (encode i) := by
  rw [State.withFetchWord, if_pos hp, tableWord_toNat]

/-- Settles O12: the word stored at the counter is the one fetched, and decoding gives the instruction back. -/
theorem placedInstructionRunsNext : Obligations.PlacedInstructionRunsNext := by
  intro s i hs hr hp hwf t
  have ht : t = s.setWord s.pcIndex (encode i) := State.withFetchWord_encode hp i
  rw [ht]
  obtain ⟨h0, h1⟩ := State.pcInRange_iff.1 hp
  refine ⟨?_, ⟨_, rfl⟩, fun k hk => State.setWord_word_ne s _ hk.symm⟩
  calc step (s.setWord s.pcIndex (encode i))
      = exec (decode ((s.setWord s.pcIndex (encode i)).word s.pcIndex)) (s.setWord s.pcIndex (encode i)) :=
        step_at_pc hr hs.conforming h0 h1
    _ = exec i (s.setWord s.pcIndex (encode i)) := by
        rw [State.setWord_word_self hs.memory, decodeOfEncodeIsTheInstruction i hwf]

/-! ### The tick count (R203, R208) -/

/-- Whether a fault is genuine does not depend on the status. -/
theorem FaultCause.genuine_takeFault {s : State} {c : FaultCause} (h : c.genuine s) :
    c.genuine (s.takeFault c) := by
  cases c <;> exact h

/-- An instruction completes and is counted, or takes a genuine fault and is not. -/
theorem exec_counted_or_faulted {s t : State} (hc : s.cfg.conforming = true) {i : Instr} (h : exec i s = .next t) :
    (t.status = s.status ∧ t.ticks = s.ticks + 1) ∨
      ((∃ c, t.status = .faulted c ∧ c.genuine t) ∧ t.ticks = s.ticks) := by
  rcases exec_cases hc h with ⟨c, -, rfl, hg⟩ | ⟨v, s1, -, hk, hd, rfl⟩ | ⟨v, s1, c, -, hk, -, -, rfl, hg⟩ |
    ⟨v, s1, u, -, hk, -, -, hku, rfl⟩
  · exact .inr ⟨⟨c, rfl, FaultCause.genuine_takeFault hg⟩, rfl⟩
  · have hg : s1.cfg.nreg ≤ i.dst := hk.cfg ▸ hd
    exact .inr ⟨⟨_, rfl, hg⟩, hk.ticks⟩
  · exact .inr ⟨⟨c, rfl, FaultCause.genuine_takeFault hg⟩, hk.ticks⟩
  · exact .inl ⟨hku.status.trans hk.status, congrArg (· + 1) (hku.ticks.trans hk.ticks)⟩

/-- Settles O18: a counted instruction keeps the status, which was running. -/
theorem onlyCompletedTicksAreCounted : Obligations.OnlyCompletedTicksAreCounted := by
  intro s t i hs hr h
  obtain ⟨hstatus, hticks⟩ | ⟨⟨c, hstatus, -⟩, hticks⟩ := exec_counted_or_faulted hs.conforming h
  · exact .inl ⟨hstatus.trans hr, hticks⟩
  · exact .inr ⟨⟨c, hstatus⟩, hticks⟩

/-- Settles O17: outside memory the step halts; inside, the fetched instruction completes or faults. -/
theorem runningMachineAlwaysSteps : Obligations.RunningMachineAlwaysSteps := by
  intro s hs hr
  cases hp : s.pcInRange with
  | false => exact ⟨s.halt, step_halts hr hs.conforming hp, .inr (.inl ⟨rfl, rfl, rfl⟩)⟩
  | true =>
    obtain ⟨t, ht⟩ := exec_next s.fetch s
    refine ⟨t, (step_running hr hs.conforming hp).trans ht, ?_⟩
    obtain ⟨hstatus, hticks⟩ | hfault := exec_counted_or_faulted hs.conforming ht
    · exact .inl ⟨rfl, hstatus.trans hr, hticks⟩
    · exact .inr (.inr ⟨rfl, hfault⟩)

/-- A step that leaves the machine running is counted. -/
theorem step_ticks_of_running {s t : State} (h : step s = .next t) (ht : t.status = .running) :
    t.ticks = s.ticks + 1 := by
  obtain ⟨-, hc, ⟨-, rfl⟩ | ⟨-, he⟩⟩ := step_cases h
  · exact nomatch ht
  · obtain ⟨-, hticks⟩ | ⟨⟨c, hstatus, -⟩, -⟩ := exec_counted_or_faulted hc he
    · exact hticks
    · exact nomatch hstatus.symm.trans ht

/-- A run that is still running has counted every step. -/
theorem run_ticks_of_running {n : Nat} {s t : State} (h : run n s = .next t) (ht : t.status = .running) :
    t.ticks = s.ticks + n := by
  induction n generalizing s with
  | zero =>
    obtain rfl := Host.Outcome.next.inj h
    rfl
  | succ n ih =>
    obtain ⟨u, hstep, hrun⟩ := run_succ_cases h
    have hu : u.status = .running := by
      by_contra hended
      obtain ⟨-, rfl⟩ := run_ended hended hrun
      exact hended ht
    rw [ih hrun, step_ticks_of_running hstep hu]
    omega

/-- A step that halts is the halt of R197: no instruction halts the machine. -/
theorem step_eq_halt_of_halted {s t : State} (h : step s = .next t) {m : Nat} {p : I64}
    (ht : t.status = .halted m p) : t = s.halt := by
  obtain ⟨hr, hc, ⟨-, heq⟩ | ⟨-, he⟩⟩ := step_cases h
  · exact heq
  · obtain ⟨hstatus, -⟩ | ⟨⟨c, hstatus, -⟩, -⟩ := exec_counted_or_faulted hc he
    · exact nomatch ht.symm.trans (hstatus.trans hr)
    · exact nomatch ht.symm.trans hstatus

/-- Settles O19: the run has counted its `n` steps, and the halt reports that count. -/
theorem haltReportsTheNumberOfMoves : Obligations.HaltReportsTheNumberOfMoves := by
  intro n s t u m p _ _ h0 hrun ht hstep hu
  obtain rfl := step_eq_halt_of_halted hstep hu
  obtain ⟨rfl, rfl⟩ := Status.halted.inj hu
  exact ⟨by rw [run_ticks_of_running hrun ht, h0, Nat.zero_add], rfl⟩

/-! ### The counter (R201) -/

/-- The counter holds what was last written to it (R10). -/
theorem Keeps.setPc_pc {s s1 : State} (hk : Keeps s s1) (hs : s.Inv) (v : I64) : (s1.setPc v).pc = v := by
  have hlt : s.cfg.pcIdx < s1.regs.length := hk.buffer ▸ hs.index_lt_length .pc
  exact State.setReg_reg_self s1 v (hk.cfg ▸ hlt)

/-- Settles O51: once the operand is read the counter stands past the instruction, and neither the store nor its trigger
moves it. -/
theorem counterAdvancesByOne : Obligations.CounterAdvancesByOne := by
  intro s t i hs h
  have hc := hs.conforming
  refine ⟨fun v s1 ho hd => ?_, fun c s1 ho => ?_⟩
  · rcases exec_cases hc h with ⟨c, hr, -⟩ | ⟨v, s1, -, hk, -, rfl⟩ | ⟨v, s1, c, -, hk, -, -, rfl, -⟩ |
      ⟨v, s1, u, -, hk, -, -, hku, rfl⟩
    · exact nomatch ho.symm.trans hr
    · exact hk.setPc_pc hs (s.pc + 1)
    · exact written_pc hs hk hd v
    · exact hku.pc.trans (written_pc hs hk hd v)
  · obtain ⟨rfl, -⟩ := operandOf_raised hc ho
    obtain rfl := Host.Outcome.next.inj ((exec_of_operand_raised ho).symm.trans h)
    rfl

/-! ### MOVEs that only store (R199, R200) -/

/-- Settles O22: the operand is the immediate, which 64 bits hold. -/
theorem immediateMoveStores : Obligations.ImmediateMoveStores := by
  intro s n d hs hwf hd
  obtain ⟨hn, -⟩ := Instr.wellFormed_movImm.1 hwf
  exact ⟨exec_of_writeOnlyStores hs (operandOf_movImm n d s) hd, toInt_immediate (by omega)⟩

/-- Settles O23: the operand is read before the advance. -/
theorem registerMoveStores : Obligations.RegisterMoveStores :=
  fun _ _ d hs hr hd => exec_of_writeOnlyStores hs (operandOf_movReg_reads hr d) hd

/-! ### MOVEs into the counter (R204, R205) -/

/-- A write of the counter replaces the advance. -/
theorem written_counter {s s1 : State} (hcfg : s1.cfg = s.cfg) (v : I64) : written s s1 s.cfg.pcIdx v = s1.setPc v := by
  rw [← hcfg]
  exact State.setReg_setReg s1 s1.cfg.pcIdx (s.pc + 1) v

/-- A MOVE into the counter completes with the operand in place of the advance. -/
theorem exec_into_counter {s s1 : State} (hs : s.Inv) {i : Instr} {v : I64} (ho : operandOf i s = .done v s1)
    (hd : i.dst = s.cfg.pcIdx) : exec i s = .next (s1.setPc v).countTick := by
  rw [exec_of_writeOnlyStores hs ho (hd ▸ Config.pc_writeOnlyStores hs.conforming), hd,
    written_counter (operandOf_done hs.conforming ho).cfg]

/-- Settles O24: the next step's halt test is made on the operand. -/
theorem moveIntoTheCounterJumps : Obligations.MoveIntoTheCounterJumps := by
  intro s i v s1 hs hr hm
  have hk := operandOf_done hs.conforming hm.operand
  have hpc : (s1.setPc v).countTick.pc = v := hk.setPc_pc hs v
  have ht : Completes s i (s1.setPc v).countTick :=
    ⟨exec_into_counter hs hm.operand hm.dst, hk.status.trans hr⟩
  have hcfg := ht.cfg hs
  have hconf := (ht.inv hs).conforming
  refine ⟨_, ht.exec, rfl, hpc, fun ⟨h0, h1⟩ => ?_, fun hout => ?_⟩
  · have hstep := step_at_pc ht.running hconf (by rwa [hpc]) (by rwa [hpc, hcfg])
    rwa [hpc] at hstep
  · have hstep := step_halts_outside ht.running hconf (by rwa [hpc, hcfg])
    rwa [State.halt, hpc] at hstep

/-- `mov PC, PC` counts a tick and changes nothing else (R205). -/
theorem exec_selfJump {s : State} (hs : s.Inv) : exec (.movReg s.cfg.pcIdx s.cfg.pcIdx) s = .next s.countTick := by
  have ho := operandOf_movReg_reads (Config.pc_readOnlyReads hs.conforming) s.cfg.pcIdx
  rw [exec_into_counter hs ho rfl]
  exact congrArg (fun u => Host.Outcome.next (State.countTick u)) (s.setReg_reg_eq s.cfg.pcIdx)

/-- The index of the counter is 27 (R33), which both operand fields hold. -/
theorem selfJump_wellFormed {cfg : Config} (hc : cfg.conforming = true) :
    (Instr.movReg cfg.pcIdx cfg.pcIdx).wellFormed = true := by
  obtain ⟨-, -, -, -, -, -, -, hpc⟩ := Config.fixed hc
  rw [hpc]
  decide

/-- Where the word at the counter is `mov PC, PC`, a step counts a tick and changes nothing else (R205). -/
theorem step_selfJump {s : State} (hs : s.Inv) (hr : s.status = .running) (hp : s.pcInRange = true)
    (hw : s.word s.pc.toInt.toNat = encode (.movReg s.cfg.pcIdx s.cfg.pcIdx)) : step s = .next s.countTick := by
  obtain ⟨h0, h1⟩ := State.pcInRange_iff.1 hp
  rw [step_at_pc hr hs.conforming h0 h1, hw, decodeOfEncodeIsTheInstruction _ (selfJump_wellFormed hs.conforming),
    exec_selfJump hs]

/-- Settles O21, by induction on the number of steps: after one step the word at the counter is the same. -/
theorem selfJumpNeverHalts : Obligations.SelfJumpNeverHalts := by
  intro s n hs hr hp hw
  induction n generalizing s with
  | zero => rfl
  | succ n ih =>
    have hinv : s.countTick.Inv := Completes.inv hs ⟨exec_selfJump hs, hr⟩
    rw [run_succ_next (step_selfJump hs hr hp hw), ih s.countTick hinv hr hp hw]
    simp only [State.countTick, Nat.add_assoc, Nat.add_comm 1]

end Sys2Proof.Machine
end

section
/-! SUPPORT. Fault-free runs under `ARITH_OVERFLOW = Fault` and under `Wrap` (R228, D3): a run under `Wrap` of a machine
that is fault-free under `Fault` is the image of a run of that machine. -/

namespace Sys2Proof.Machine

open Sys2Proof

/-- The policy has no part in whether a step answers a next state. -/
theorem step_next_of_wrapping {s t : State} (h : step s.wrapping = .next t) : ∃ u, step s = .next u := by
  obtain ⟨hr, hc, ⟨hp, -⟩ | ⟨hp, -⟩⟩ := step_cases h
  · exact ⟨s.halt, step_halts (s := s) hr hc hp⟩
  · rw [step_running (s := s) hr hc hp]
    exact exec_next _ _

theorem State.NoFault.noOverflow {s : State} (h : s.NoFault) : s.NoOverflow := fun _ _ _ => h _

/-- Every step under `Wrap` is that of the fault-free run, which takes no overflow fault. -/
theorem FaultFree.exists_reaches_of_wrapping {s t : State} (hs : FaultFree s) (h : Reaches s.wrapping t) :
    ∃ u, Reaches s u ∧ t = u.wrapping := by
  refine reaches_induction (P := fun t => ∃ u, Reaches s u ∧ t = u.wrapping) h ⟨s, .refl s, rfl⟩ ?_
  rintro _ t ⟨u, hu, rfl⟩ ht
  obtain ⟨u', hu'⟩ := step_next_of_wrapping ht
  have hreach : Reaches s u' := hu.tick hu'
  have hwrap : step u.wrapping = .next u'.wrapping := step_wrapping hu' (hs u' hreach).noOverflow
  exact ⟨u', hreach, Host.Outcome.next.inj (ht.symm.trans hwrap)⟩

/-- Settles O33: a state reached under `Wrap` has the status of one reached under `Fault`. -/
theorem faultFreeStaysFaultFreeUnderWrap : Obligations.FaultFreeStaysFaultFreeUnderWrap := by
  intro s _ hs t ht
  obtain ⟨u, hu, rfl⟩ := hs.exists_reaches_of_wrapping ht
  exact hs u hu

end Sys2Proof.Machine
end

section
/-! SUPPORT. The invariant (R30, R35, R42, R207, R221): it holds after initialization, and every step keeps it. -/

namespace Sys2Proof.Machine

open Sys2Proof

/-! ### Initialization (R77, R245) -/

/-- Settles O9: the loader changes the blank machine's memory alone, and keeps it canonical. -/
theorem initializationMeetsTheInvariant : Obligations.InitializationMeetsTheInvariant := by
  intro cfg image hc
  have hblank := State.blank_inv hc
  exact { hblank with memory := Memory.wf_load _ _ image cfg.loadBase hblank.memory }

/-! ### The part of the invariant that the status has no part in -/

/-- The clauses of `State.Inv` that hold in the middle of a tick as well, where the status is not yet settled. -/
structure State.Sound (s : State) : Prop where
  conforming : s.cfg.conforming = true
  buffer : s.regs.length = s.cfg.nreg
  memory : s.mem.wf s.cfg.memInit s.cfg.cap = true
  trace : ∀ e ∈ s.trace, e.valid s.cfg

theorem State.Inv.sound {s : State} (hs : s.Inv) : s.Sound := ⟨hs.conforming, hs.buffer, hs.memory, hs.trace⟩

section
variable {s : State} (hs : s.Sound)
include hs

theorem State.Sound.of_keeps {t : State} (h : Keeps s t) : t.Sound where
  conforming := h.cfg ▸ hs.conforming
  buffer := by rw [h.cfg, h.buffer, hs.buffer]
  memory := h.cfg ▸ h.memory hs.memory
  trace := by
    obtain ⟨es, htrace, hvalid⟩ := h.trace
    rw [h.cfg, htrace]
    exact List.forall_mem_append.2 ⟨hs.trace, hvalid⟩

theorem State.Sound.setReg (i : Nat) (v : I64) : (s.setReg i v).Sound :=
  { hs with buffer := by rw [State.setReg_regs, List.length_set, hs.buffer, State.setReg_cfg] }

theorem State.Sound.advance (p : I64) : (s.advance p).Sound := hs.setReg s.cfg.pcIdx (p + 1)

theorem State.Sound.takeFault (c : FaultCause) : (s.takeFault c).Sound := { hs with }

theorem State.Sound.countTick : s.countTick.Sound := { hs with }

theorem State.Sound.inv_of_running (hr : s.status = .running) : s.Inv :=
  { hs with
    halt := fun _ _ h => nomatch hr.symm.trans h
    fault := fun _ h => nomatch hr.symm.trans h }

theorem State.Sound.inv_of_faulted {c : FaultCause} (hf : s.status = .faulted c) (hg : c.genuine s) : s.Inv :=
  { hs with
    halt := fun _ _ h => nomatch hf.symm.trans h
    fault := fun _ h => Status.faulted.inj (hf.symm.trans h) ▸ hg }

end

/-! ### The step -/

/-- An instruction is made of updates that keep the memory canonical and the trace valid, however it ends. -/
theorem exec_sound {s t : State} (hs : s.Sound) {i : Instr} (h : exec i s = .next t) : t.Sound := by
  rcases exec_cases hs.conforming h with ⟨c, -, rfl, -⟩ | ⟨v, s1, -, hk, -, rfl⟩ | ⟨v, s1, c, -, hk, -, -, rfl, -⟩ |
    ⟨v, s1, u, -, hk, -, -, hku, rfl⟩
  · exact hs.takeFault c
  · exact ((hs.of_keeps hk).advance _).takeFault _
  · exact (((hs.of_keeps hk).advance _).setReg _ v).takeFault c
  · exact ((((hs.of_keeps hk).advance _).setReg _ v).of_keeps hku).countTick

/-- An instruction that a running machine executes completes, or takes a genuine fault (R220, R221). -/
theorem exec_inv {s t : State} (hs : s.Inv) (hr : s.status = .running) {i : Instr} (h : exec i s = .next t) :
    t.Inv := by
  have ht := exec_sound hs.sound h
  obtain ⟨hstatus, -⟩ | ⟨⟨c, hfault, hgenuine⟩, -⟩ := exec_counted_or_faulted hs.conforming h
  · exact ht.inv_of_running (hstatus.trans hr)
  · exact ht.inv_of_faulted hfault hgenuine

/-- A halt with the counter outside memory reports the tick count and the counter (R197, R207). -/
theorem State.Inv.halt_inv {s : State} (hs : s.Inv) (hp : s.pcInRange = false) : s.halt.Inv :=
  { hs with
    halt := fun t p h => by
      obtain ⟨rfl, rfl⟩ := Status.halted.inj h
      exact ⟨rfl, rfl, hp⟩
    fault := fun _ h => nomatch h }

/-- Settles O16: a step halts with the counter outside memory, or executes the fetched instruction. -/
theorem everyStepKeepsTheInvariant : Obligations.EveryStepKeepsTheInvariant := by
  intro s t hs h
  obtain ⟨hr, -, ⟨hp, rfl⟩ | ⟨-, he⟩⟩ := step_cases h
  · exact hs.halt_inv hp
  · exact exec_inv hs hr he

end Sys2Proof.Machine
end

section
/-! SUPPORT. The sum after MOVEs to both addends (R250, R251): the first write leaves its operand stored whether or not
it fires `ADD`, and the second fires under either setting of `OPERAND_TRIGGERS`. -/

namespace Sys2Proof.Machine

open Sys2Proof

/-- No operation stores to `ADD_A`, nor to a role that may share its register (R118). -/
theorem addA_not_result (op : Op) : ∀ q ∈ resultRoles op, q ≠ .addA ∧ q.mayShare .addA = false := by
  cases op <;> decide

/-- A write that completes leaves the register as stored, where no operation stores to it: whether the write fires makes
no difference. -/
theorem regSet_reg_of_not_result {s u : State} (hc : s.cfg.conforming = true) {r : Role}
    (hr : ∀ op, ∀ q ∈ resultRoles op, q ≠ r ∧ q.mayShare r = false) {d : Nat} {v : I64}
    (h : regSet d v s = .done () u) : u.reg (s.cfg.index r) = (s.setReg d v).reg (s.cfg.index r) := by
  obtain ⟨rfl, -⟩ | ⟨e, -, -, hrun⟩ := regSet_cases hc h
  · rfl
  · exact runTrigger_reg hrun fun q hq => Config.index_ne hc (hr e.2 q hq).1 (hr e.2 q hq).2

/-- Where the immediate's MOVE completes, its value stands in a destination that is no result. -/
theorem Completes.role_of_immediate {s t : State} (hs : s.Inv) {r : Role}
    (hr : ∀ op, ∀ q ∈ resultRoles op, q ≠ r ∧ q.mayShare r = false) {n : Nat}
    (h : Completes s (.movImm n (s.cfg.index r)) t) : t.role r = BitVec.ofNat 64 n := by
  have hcfg := h.cfg hs
  obtain ⟨hexec, hrun⟩ := h
  rw [exec_of_operand (operandOf_movImm n _ s), Instr.dst_movImm] at hexec
  cases hset : regSet (s.cfg.index r) (BitVec.ofNat 64 n) (s.advance s.pc) with
  | raised c u =>
    rw [hset] at hexec
    obtain rfl := Host.Outcome.next.inj hexec
    nomatch hrun
  | done x u =>
    rw [hset] at hexec
    obtain rfl := Host.Outcome.next.inj hexec
    calc u.countTick.role r = u.reg (s.cfg.index r) := congrArg (fun cfg => u.reg (Config.index cfg r)) hcfg
      _ = (written s s (s.cfg.index r) (BitVec.ofNat 64 n)).role r :=
        regSet_reg_of_not_result (s := s.advance s.pc) hs.conforming hr hset
      _ = BitVec.ofNat 64 n := written_role_self hs r _

/-- Writing the second addend leaves the sum in the result register; two immediates' sum fits. -/
theorem exists_second_addend {s : State} (hs : s.Inv) (hr : s.status = .running) {a b : Nat} (ha : a ≤ 32767)
    (hb : b ≤ 32767) (hfirst : s.role .addA = BitVec.ofNat 64 a) :
    ∃ u, Completes s (.movImm b (s.cfg.index .addB)) u ∧ (u.role .addR).toInt = (a : Int) + b := by
  let w := written s s (s.cfg.index .addB) (BitVec.ofNat 64 b)
  have hfires : (Role.addB, Op.add) ∈ Config.writers s.cfg.operandTriggers := by
    cases s.cfg.operandTriggers <;> decide
  have hsum : ArithOp.add.exact (w.role .addA) (w.role .addB) = (a : Int) + b := by
    rw [ArithOp.exact, written_role_self hs, written_role_ne hs (by decide) rfl (by decide), hfirst,
      toInt_immediate ha, toInt_immediate hb]
  have hrange : -2 ^ 63 ≤ (a : Int) + b ∧ (a : Int) + b ≤ 2 ^ 63 - 1 := by omega
  refine ⟨_, completes_fires hs hr (operandOf_movImm b _ s) hfires rfl
    (narrowedInto_of_fits hsum (fits64_iff.2 hrange)), ?_⟩
  have hlen : w.regs.length = s.cfg.nreg := by simp [w, written, hs.buffer]
  rw [State.countTick_role, State.setRole_role_self (hlen ▸ Config.index_lt hs.conforming .addR)]
  exact toInt_wrap64_of_range hrange

/-- Settles O34: the first write's operand is still in `ADD_A` when the second fires the addition. -/
theorem sumIsReadableAfterBothAddends : Obligations.SumIsReadableAfterBothAddends := by
  intro s t a b hs hr ha hb hexec ht
  have hfirst : Completes s (.movImm a (s.cfg.index .addA)) t := ⟨hexec, ht⟩
  obtain ⟨u, hsecond, hsum⟩ :=
    exists_second_addend (hfirst.inv hs) ht ha hb (hfirst.role_of_immediate hs addA_not_result)
  rw [hfirst.cfg hs] at hsecond
  exact ⟨u, hsecond.exec, hsecond.running, hsum⟩

end Sys2Proof.Machine
end
